-- ==== Sys2Proof/Word.lean ====
section
/-! DEFINITION. The byte, and the four-axis quantity of the Motion Quantizer with its plainest arithmetic. -/

namespace Sys2Proof

/-- One byte of the input stream or of the frame buffer (00_scope.md section 5, `u8`). -/
abbrev Byte := BitVec 8

/-- One signed quantity per axis: a target, the remaining displacement `rem_x, rem_y, rem_v, rem_h`
(10_state.md R12) or a QuantizedMove `(dx, dy, v, h)` (42_quantizer.md R112). All arithmetic of the
Quantizer is on mathematical integers (R108). -/
structure Axes where
  x : Int
  y : Int
  v : Int
  h : Int
deriving DecidableEq, Repr

/-- All four axes zero: where a decomposition ends (42_quantizer.md R103). -/
def Axes.zero : Axes := ⟨0, 0, 0, 0⟩

/-- Subtraction axis by axis (42_quantizer.md R102). -/
def Axes.sub (a b : Axes) : Axes := ⟨a.x - b.x, a.y - b.y, a.v - b.v, a.h - b.h⟩

/-- Addition axis by axis, for the sum law (42_quantizer.md R105). -/
def Axes.add (a b : Axes) : Axes := ⟨a.x + b.x, a.y + b.y, a.v + b.v, a.h + b.h⟩

end Sys2Proof
end

