-- ==== Sys2Proof/Syntax.lean ====
section
/-! DEFINITION. The decoded frame and the instruction set: one constructor per frame kind of
spec/opcode_table.json. -/

namespace Sys2Proof

/-- A point pair `(dx, dy)`, each an `i8` (41_decoder.md section 1); the range is checked by `Instr.wf`. -/
structure Point where
  dx : Int
  dy : Int
deriving DecidableEq, Repr

/-- The Frame value of 41_decoder.md section 1. -/
structure Frame where
  pointCount : Nat
  click      : Bool
  reset      : Bool
  points     : List Point
deriving DecidableEq, Repr

/-- The instructions of EHFRQ: the four frame kinds the two flag bytes select (30_encoding.md R57). The
operands of each are `point_count` and the point pairs (43_frame_execution.md section 2). -/
inductive Instr where
  /-- `FRAME.M`: click clear, reset clear (R121). -/
  | frameM (pointCount : Nat) (points : List Point)
  /-- `FRAME.MC`: click set, reset clear (R122). -/
  | frameMC (pointCount : Nat) (points : List Point)
  /-- `FRAME.RM`: click clear, reset set (R123). -/
  | frameRM (pointCount : Nat) (points : List Point)
  /-- `FRAME.RMC`: both flags set (R124). -/
  | frameRMC (pointCount : Nat) (points : List Point)
deriving DecidableEq, Repr

/-- The Frame an instruction stands for. -/
def Instr.frame : Instr → Frame
  | .frameM n ps   => ⟨n, false, false, ps⟩
  | .frameMC n ps  => ⟨n, true, false, ps⟩
  | .frameRM n ps  => ⟨n, false, true, ps⟩
  | .frameRMC n ps => ⟨n, true, true, ps⟩

/-- Pseudo-frame `NOP` (30_encoding.md R64). -/
def Instr.nop : Instr := .frameM 0 []

/-- Pseudo-frame `CLICK` (30_encoding.md R64). -/
def Instr.clickOnly : Instr := .frameMC 0 []

/-- Pseudo-frame `HOME` (30_encoding.md R64). -/
def Instr.home : Instr := .frameRM 0 []

/-- Pseudo-frame `HOMECLICK` (30_encoding.md R64). -/
def Instr.homeClick : Instr := .frameRMC 0 []

end Sys2Proof
end

