-- ==== Sys2Proof/WellFormed.lean ====
section
/-! DEFINITION. Which instruction terms are frames: the checks of 41_decoder.md section 1 and R96. -/

namespace Sys2Proof

/-- The range of an `i8` (00_scope.md section 5). -/
def fitsI8 (z : Int) : Bool := decide (-128 ≤ z) && decide (z ≤ 127)

/-- Both components of a pair are `i8` values. -/
def Point.wf (p : Point) : Bool := fitsI8 p.dx && fitsI8 p.dy

/-- A Frame: `point_count` is a `u16`, `len(points) = point_count`, and each component is an `i8`
(41_decoder.md section 1, R96). -/
def Frame.wf (f : Frame) : Bool :=
  decide (f.pointCount ≤ 65535) && decide (f.points.length = f.pointCount) && f.points.all Point.wf

/-- An instruction is well formed when its frame is. -/
def Instr.wf (i : Instr) : Bool := i.frame.wf

end Sys2Proof
end

