-- ==== Sys2Proof/Decode.lean ====
section
/-! DEFINITION. The Frame Decoder (41_decoder.md), the encoder, and the split of a byte stream into
declared units (40_reassembler.md R81). -/

namespace Sys2Proof

/-- `le16(b0, b1) = b0 + 256*b1` (20_memory.md R37, 30_encoding.md R53). -/
def le16 (b0 b1 : Byte) : Nat := b0.toNat + 256 * b1.toNat

/-- `sext_8(b)`: the byte read as a signed byte (30_encoding.md R55). PRESUMED (U17, log 11): two's
complement at every value is marked general knowledge by the spec itself. -/
def sext8 (b : Byte) : Int := if b.toNat < 128 then (b.toNat : Int) else (b.toNat : Int) - 256

/-- The test of a flag byte: the whole byte equals 1 (30_encoding.md R54). -/
def flagByte (b : Byte) : Bool := b == 1

/-- `4 + 2*point_count` (30_encoding.md R51). -/
def frameLength (pointCount : Nat) : Nat := 4 + 2 * pointCount

/-- The frame kind the two flags select (30_encoding.md R57). -/
def Frame.instr (f : Frame) : Instr :=
  match f.reset, f.click with
  | false, false => .frameM f.pointCount f.points
  | false, true  => .frameMC f.pointCount f.points
  | true,  false => .frameRM f.pointCount f.points
  | true,  true  => .frameRMC f.pointCount f.points

/-- Why a buffer is no frame (41_decoder.md R95). -/
inductive DecodeReject where
  /-- Fewer than two bytes: there is no `point_count` to read. -/
  | headerMissing
  /-- The length is not `4 + 2*point_count`. -/
  | lengthMismatch
deriving DecidableEq, Repr

/-- What DECODE answers (41_decoder.md R90). -/
inductive Decoded where
  | frame (i : Instr)
  | reject (why : DecodeReject)
deriving DecidableEq, Repr

/-- The point pairs of a payload, in order (41_decoder.md R94). -/
def decodePoints : List Byte → List Point
  | bx :: by' :: rest => ⟨sext8 bx, sext8 by'⟩ :: decodePoints rest
  | _ => []

/-- `DECODE(buf)` (41_decoder.md R90 to R95): the length is checked before anything else is read. -/
def decode (buf : List Byte) : Decoded :=
  match buf with
  | b0 :: b1 :: rest =>
    if buf.length = frameLength (le16 b0 b1) then
      match rest with
      | b2 :: b3 :: payload =>
        .frame (Frame.instr ⟨le16 b0 b1, flagByte b2, flagByte b3, decodePoints payload⟩)
      | _ => .reject .lengthMismatch
    else .reject .lengthMismatch
  | _ => .reject .headerMissing

/-- `v mod 256` of an `i8` as a byte: `-6 -> FA`, `-128 -> 80` (41_decoder.md R96). -/
def encodeI8 (z : Int) : Byte := BitVec.ofInt 8 z

/-- The canonical flag byte (30_encoding.md R58). -/
def encodeFlag (f : Bool) : Byte := if f then 1 else 0

/-- The payload bytes of the pairs, `dx` at the lower offset (41_decoder.md R96, 20_memory.md R39). -/
def encodePoints : List Point → List Byte
  | [] => []
  | p :: ps => encodeI8 p.dx :: encodeI8 p.dy :: encodePoints ps

/-- `ENCODE(f)` (41_decoder.md R96). -/
def encodeFrame (f : Frame) : List Byte :=
  BitVec.ofNat 8 (f.pointCount % 256) :: BitVec.ofNat 8 (f.pointCount / 256) ::
    encodeFlag f.click :: encodeFlag f.reset :: encodePoints f.points

/-- The bytes of an instruction (41_decoder.md R96). -/
def encode (i : Instr) : List Byte := encodeFrame i.frame

/-- A buffer with each flag byte other than 1 replaced by 0 (41_decoder.md R97, 30_encoding.md R58). -/
def canonicalFlags : List Byte → List Byte
  | b0 :: b1 :: b2 :: b3 :: payload =>
    b0 :: b1 :: encodeFlag (flagByte b2) :: encodeFlag (flagByte b3) :: payload
  | buf => buf

/-- The bytes split into declared units and the remainder, at most `fuel` units (40_reassembler.md R81). -/
def parseUpTo : Nat → List Byte → List (List Byte) × List Byte
  | 0, s => ([], s)
  | fuel + 1, s =>
    match s with
    | b0 :: b1 :: _ =>
      let len := frameLength (le16 b0 b1)
      if s.length < len then ([], s)
      else
        let tail := parseUpTo fuel (s.drop len)
        (s.take len :: tail.1, tail.2)
    | _ => ([], s)

/-- `parse(S)` (40_reassembler.md R81): every unit, kept or dropped, and the remainder. A unit has at
least four bytes, so as many units as bytes are enough. -/
def parse (s : List Byte) : List (List Byte) × List Byte := parseUpTo s.length s

/-- The `point_count` the first two bytes declare; 0 where there are not two bytes (a unit always has
them, 40_reassembler.md R81). -/
def declaredCount : List Byte → Nat
  | b0 :: b1 :: _ => le16 b0 b1
  | _ => 0

/-- The `k` low bytes of a number, lowest first: byte 0 of a frame is `H[7:0]` (30_encoding.md R56). -/
def lowBytes : Nat → Nat → List Byte
  | 0, _ => []
  | k + 1, w => BitVec.ofNat 8 (w % 256) :: lowBytes k (w / 256)

/-- A frame from a row of the opcode table: the given bits lowest first, every later byte of the frame
0, as many bytes as its own `point_count` declares. -/
def tableBytes (nbits w : Nat) : List Byte :=
  let given := lowBytes ((nbits + 7) / 8) w
  let len := frameLength (declaredCount (given ++ [0, 0]))
  (given ++ List.replicate (len - given.length) 0).take len

/-- The instruction the decoder reads from a row of the opcode table. -/
def decodeTableWord (nbits w : Nat) : Option Instr :=
  match decode (tableBytes nbits w) with
  | .frame i => some i
  | .reject _ => none

end Sys2Proof
end

