-- ==== Sys2Proof/Config.lean ====
section
/-! DEFINITION. What a session fixes: the two parameters the source leaves open (00_scope.md R6, R7), and the
session `State.reset` stands in. There is no free value: no rule of the spec leaves a result open. -/

namespace Sys2Proof

/-- The parameter `ORIGIN`: four signed 32-bit integers (00_scope.md R7). -/
structure Origin where
  x : BitVec 32
  y : BitVec 32
  v : BitVec 32
  h : BitVec 32
deriving DecidableEq, Repr

/-- The configuration of 10_state.md R17: `MAX_POINTS` (16 bits) and `ORIGIN`, constant from reset to
reset. The spec leaves both OPEN (D3, D4): they are fields of `State`, so that a statement about every
state is a statement about every configuration. -/
structure Params where
  maxPoints : BitVec 16
  origin    : Origin
deriving DecidableEq, Repr

namespace Config

/-- The session `State.reset` stands in. DESIGN CHOICE (log 1): the spec gives no value for either
parameter; these are the "default" of 95_test_vectors.md B2 and P1. -/
def session : Params := ⟨65535, ⟨0, 0, 0, 0⟩⟩

end Config

end Sys2Proof
end

