-- ==== Sys2Proof/Machine/State.lean ====
section
/-! DEFINITION. The state of EHFRQ as plain data, its reasons to stop, and reset (10_state.md). -/

namespace Sys2Proof.Machine

/-- `rs_phase` (10_state.md R10). -/
inductive RsPhase where
  | idle
  | collect
  | skip
deriving DecidableEq, Repr

/-- `fx_phase` (10_state.md R12). -/
inductive FxPhase where
  | idle
  | decomp
  | replay
  | press
  | release
deriving DecidableEq, Repr

/-- The four fault causes of 60_exceptions.md R140. -/
inductive Cause where
  /-- Code 1, `FRAME_OVERSIZE`. -/
  | frameOversize
  /-- Code 2, `DECODE_INCONSISTENT`. -/
  | decodeInconsistent
  /-- Code 3, `SINK_FATAL`. -/
  | sinkFatal
  /-- Code 4, `TRANSPORT_FATAL`. -/
  | transportFatal
deriving DecidableEq, Repr

/-- A SINK event (43_frame_execution.md R125, R126). -/
inductive SinkEvent where
  /-- `SINK.Move(dx, dy, v, h)`. -/
  | move (m : Axes)
  /-- `SINK.Button(p)`: `true` the press, `false` the release of the left button. -/
  | button (pressed : Bool)
deriving DecidableEq, Repr

/-- An event of the output trace (10_state.md R21): a SINK event, or `DIAG.Fault(cause, info)`
(60_exceptions.md R141). -/
inductive Event where
  | sink (e : SinkEvent)
  | diag (cause : Cause) (info : Nat)
deriving DecidableEq, Repr

/-- The Report Sink's answer to a SINK event (60_exceptions.md R155). -/
inductive SinkAnswer where
  | ok
  | fatal
deriving DecidableEq, Repr

/-- A transaction the Transport Source presents at IN (60_exceptions.md R156): the next byte, or its
fatal signal (R146). -/
inductive InItem where
  | byte (b : Byte)
  | fatal
deriving DecidableEq, Repr

/-- The frame buffer `rs_buf` as (offset, byte) pairs (20_memory.md R32), offsets strictly rising. Every
offset holds a byte: one that is not listed holds `Memory.unlisted`, and no entry lists that byte. -/
abbrev Memory := List Host.Cell

/-- The whole state: the records of 10_state.md R10, R12 and R16, the configuration (R17), the output
trace (R21), and the environment's inputs (log 4, log 5, log 7). Counters are natural numbers and the
remaining displacements integers, as 00_scope.md R8 allows (log 10). -/
structure State where
  /-- `MAX_POINTS` and `ORIGIN` (R17). -/
  params : Params
  /-- `rs_phase` (R10). -/
  rsPhase : RsPhase
  /-- `rs_expected` (R10). -/
  rsExpected : Option Nat
  /-- `rs_count` (R10). -/
  rsCount : Nat
  /-- `rs_buf` (R10, 20_memory.md R32). -/
  rsBuf : Memory
  /-- `fx_phase` (R12). -/
  fxPhase : FxPhase
  /-- `fx_point_count` (R12). -/
  fxPointCount : Nat
  /-- `fx_click` (R12, R15). -/
  fxClick : Bool
  /-- `fx_reset` (R12, R15). -/
  fxReset : Bool
  /-- `fx_idx` (R12). -/
  fxIdx : Nat
  /-- The owned copy of the frame's points (R12: `fx_frame`; log 9). -/
  fxPoints : List Point
  /-- `rem_x, rem_y, rem_v, rem_h` (R12, R14). -/
  rem : Axes
  /-- `st_flags[3:0]` (R16). -/
  stFlags : BitVec 4
  /-- The output trace OUT (R21; log 19). -/
  trace : List Event
  /-- What the Transport Source presents at IN and the block has not taken (20_memory.md R30; log 4). -/
  input : List InItem
  /-- The answers the Report Sink has ready for the SINK events to come, in order (60_exceptions.md
  R155; log 5). -/
  sinkAnswers : List SinkAnswer
  /-- The reset input (70_reset_and_hazards.md R170; log 7). -/
  resetIn : Bool
  /-- The bytes `rs_buf` will hold after the next reset: unspecified (R22), any value
  (93_implementation_defined.md U8), so any buffer may stand here (log 3). -/
  bufAfterReset : Memory
deriving DecidableEq, Repr

/-- Why the machine stops. -/
inductive Fault where
  /-- Raised by the step and by a handoff when `halted` holds: no operation is enabled until reset
  (60_exceptions.md R148). Safe: the block does nothing there, and a reset is still taken. -/
  | halted
  /-- Raised by PUSH in a Reassembler state no rule R71 to R75 describes (10_state.md R11 excludes it).
  Safe: no run from reset reaches it (log 13). -/
  | noPushRule
  /-- Raised by an access of PUSH at or beyond `BUF_CAP` (20_memory.md R33, R34, 40_reassembler.md R79).
  Safe: no run from reset reaches it (log 13). -/
  | bufferOverrun
  /-- Raised by REPLAY where the owned points hold no pair `fx_idx` (10_state.md R12 excludes it). Safe:
  never a value read from beyond the frame (U2), and no run from reset reaches it (log 13). -/
  | pointMissing
deriving DecidableEq, Repr

/-- Why an instruction has no meaning in a state. -/
inductive Refusal where
  /-- Raised by an arm of `exec` whose instruction has no meaning yet. Safe. No arm does. -/
  | notModelled (mnemonic : String)
  /-- Raised by a handoff while another frame executes: two overlapping FEEDs
  (70_reset_and_hazards.md R173; U1 says `refuse`). Safe: the step never hands off then (log 14). -/
  | overlappingFeed
deriving DecidableEq, Repr

/-- What one executor step comes to: a step was taken, or it waits (no step is enabled: nothing to
execute, halted, or the sink has not answered), or it stops. -/
inductive FxStep where
  | took (s : State)
  | waits
  | stops (r : Fault)
deriving DecidableEq, Repr

/-- What FEED leaves (40_reassembler.md R77): the state, the frames handed off during the call, in
order, and the bytes of the chunk that were not consumed. -/
structure Fed where
  state      : State
  frames     : List (List Byte)
  unconsumed : List Byte
deriving DecidableEq, Repr

/-- The status view (10_state.md R18). -/
structure StatusView where
  rsPhase    : RsPhase
  rsExpected : Option Nat
  rsCount    : Nat
  fxPhase    : FxPhase
  stFlags    : BitVec 4
deriving DecidableEq, Repr

/-- The block after reset in a session with parameters `p`, its buffer holding `contents` (10_state.md R22,
70_reset_and_hazards.md R170). The contents of `rs_buf` are unspecified there, any value: `contents` is
any buffer (log 3). The executor's registers are unspecified there too: DESIGN CHOICE (log 2), each is
0, false or empty; no rule reads one before it is written (R23). The environment presents nothing yet. -/
def State.resetWith (p : Params) (contents : Memory) : State where
  params := p
  rsPhase := .idle
  rsExpected := none
  rsCount := 0
  rsBuf := contents
  fxPhase := .idle
  fxPointCount := 0
  fxClick := false
  fxReset := false
  fxIdx := 0
  fxPoints := []
  rem := Axes.zero
  stFlags := 0
  trace := []
  input := []
  sinkAnswers := []
  resetIn := false
  bufAfterReset := contents

/-- The machine right after reset, in the session `Config.session` (log 1), its buffer with nothing listed,
every byte 0 (DESIGN CHOICE, log 3). -/
def State.reset : State := State.resetWith Config.session []

end Sys2Proof.Machine
end

