-- ==== Sys2Proof/Machine/Flags.lean ====
section
/-! DEFINITION. The status flags `st_flags[3:0]` (10_state.md R16) and the status view (R18). -/

namespace Sys2Proof.Machine

/-- The code of a cause (60_exceptions.md R140). -/
def causeCode : Cause → Nat
  | .frameOversize      => 1
  | .decodeInconsistent => 2
  | .sinkFatal          => 3
  | .transportFatal     => 4

/-- The bit of `st_flags` a cause sets (10_state.md R16): 0 ST_OVERSIZE, 1 ST_DECODE, 2 ST_SINK_FATAL,
3 ST_TRANSPORT_FATAL. -/
def causeBit : Cause → Nat
  | .frameOversize      => 0
  | .decodeInconsistent => 1
  | .sinkFatal          => 2
  | .transportFatal     => 3

/-- The flags with a cause's sticky bit set and every other bit as it was. -/
def setFlag (c : Cause) (flags : BitVec 4) : BitVec 4 :=
  match c with
  | .frameOversize      => flags ||| 1
  | .decodeInconsistent => flags ||| 2
  | .sinkFatal          => flags ||| 4
  | .transportFatal     => flags ||| 8

/-- Whether a cause's sticky flag is set. -/
def flagIsSet (c : Cause) (flags : BitVec 4) : Bool := flags.getLsbD (causeBit c)

/-- `halted = st_flags[2] OR st_flags[3]` (10_state.md R16). -/
def halted (s : State) : Bool := flagIsSet .sinkFatal s.stFlags || flagIsSet .transportFatal s.stFlags

/-- The status view, read without side effect (10_state.md R18). -/
def statusView (s : State) : StatusView := ⟨s.rsPhase, s.rsExpected, s.rsCount, s.fxPhase, s.stFlags⟩

/-- "A frame is pending exactly when `rs_phase != IDLE or rs_count != 0`" (10_state.md R18). -/
def framePending (v : StatusView) : Bool := v.rsPhase != .idle || v.rsCount != 0

end Sys2Proof.Machine
end

