-- ==== Sys2Proof/Machine/Ops.lean ====
section
/-! DEFINITION. The named operations over the state: the frame buffer (20_memory.md), the output trace and
the sink (43_frame_execution.md section 3), raising a fault (60_exceptions.md section 2), and reset
(70_reset_and_hazards.md section 1). -/

namespace Sys2Proof

/-- The target `ORIGIN` as integers, two's complement (00_scope.md R7, R8). -/
def Origin.axes (o : Origin) : Axes := ⟨o.x.toInt, o.y.toInt, o.v.toInt, o.h.toInt⟩

/-- `BUF_CAP = MAX_FRAME_BYTES = 4 + 2*MAX_POINTS` (00_scope.md R6). -/
def Params.bufCap (p : Params) : Nat := 4 + 2 * p.maxPoints.toNat

end Sys2Proof

namespace Sys2Proof.Machine

/-- The byte an offset that is not listed holds. It only fixes how a buffer is written down: a buffer
with any bytes has its list, and what `rs_buf` holds after reset is any buffer (log 3). -/
def Memory.unlisted : Byte := 0

/-- The byte at an offset. -/
def Memory.read : Memory → Nat → Byte
  | [], _ => Memory.unlisted
  | (k, v) :: m, a => if k = a then v else Memory.read m a

/-- A cell put before the first one with a greater offset. -/
def Memory.insertCell (c : Host.Cell) : Memory → Memory
  | [] => [c]
  | d :: m => if c.1 < d.1 then c :: d :: m else d :: Memory.insertCell c m

/-- The buffer with one byte set, in canonical form: writing the byte an unlisted offset holds takes the
offset off the list. -/
def Memory.write (m : Memory) (a : Nat) (b : Byte) : Memory :=
  let others := m.filter fun c => c.1 != a
  if b = Memory.unlisted then others else Memory.insertCell (a, b) others

/-- Bytes written at consecutive offsets, from `addr` on. -/
def Memory.writeFrom (m : Memory) : Nat → List Byte → Memory
  | _, [] => m
  | addr, b :: bs => Memory.writeFrom (m.write addr b) (addr + 1) bs

/-- The canonical form: offsets strictly rising, and no entry with the byte an unlisted offset holds. -/
def Memory.wf : Memory → Bool
  | [] => true
  | [c] => decide (c.2 ≠ Memory.unlisted)
  | c :: d :: m => decide (c.2 ≠ Memory.unlisted) && decide (c.1 < d.1) && Memory.wf (d :: m)

/-- The `n` bytes at `addr .. addr+n-1`, lowest offset first. -/
def Memory.bytes (m : Memory) (addr : Nat) : Nat → List Byte
  | 0 => []
  | n + 1 => m.read addr :: Memory.bytes m (addr + 1) n

/-- `MemRead(addr, n)` (20_memory.md R33); none at or beyond `BUF_CAP`. -/
def memRead (addr n : Nat) (s : State) : Option (List Byte) :=
  if addr + n ≤ s.params.bufCap then some (s.rsBuf.bytes addr n) else none

/-- `MemWrite(addr, 1, v)` (20_memory.md R34); none at or beyond `BUF_CAP`. -/
def memWrite (addr : Nat) (b : Byte) (s : State) : Option State :=
  if addr < s.params.bufCap then some { s with rsBuf := s.rsBuf.write addr b } else none

/-- `raise <Fault>(info)`: the one shared entry of the four faults (60_exceptions.md R143 to R146). The
sticky flag is set and the DIAG event appended; `DECODE_INCONSISTENT` also sends executor and
Reassembler to idle (R144). `halted` follows from the flags. -/
def raiseFault (c : Cause) (info : Nat) (s : State) : State :=
  let entered := { s with stFlags := setFlag c s.stFlags, trace := s.trace ++ [.diag c info] }
  match c with
  | .decodeInconsistent =>
    { entered with fxPhase := .idle, rsPhase := .idle, rsExpected := none, rsCount := 0 }
  | _ => entered

/-- One SINK event: the call to the Report Sink and its answer (43_frame_execution.md R125, R126;
60_exceptions.md R155). `s` is the state after the step's own updates. The event joins the trace and
the sink's next answer is taken; a `fatal` answer raises `SINK_FATAL` (R145). While the sink has not
answered, the block waits (log 5). -/
def emitSink (e : SinkEvent) (s : State) : FxStep :=
  match s.sinkAnswers with
  | [] => .waits
  | answer :: later =>
    let called := { s with trace := s.trace ++ [.sink e], sinkAnswers := later }
    match answer with
    | .ok => .took called
    | .fatal => .took (raiseFault .sinkFatal 0 called)

/-- Reset (70_reset_and_hazards.md R170, R171): every piece of the block's state as 10_state.md R22 says,
in the same session's parameters, the buffer with the contents chance has ready for it (log 3). What the
environment has waiting is outside the block and stays (log 7); the reset input is released. -/
def afterReset (s : State) : State :=
  { State.resetWith s.params s.bufAfterReset with
    input := s.input, sinkAnswers := s.sinkAnswers }

end Sys2Proof.Machine
end

