-- ==== Sys2Proof/Machine/Operands.lean ====
section
/-! DEFINITION. The operand forms: every access to a frame's bytes in `rs_buf` (20_memory.md R33, R39). -/

namespace Sys2Proof.Machine

/-- `point_count` from offsets 0 and 1, which every buffer has (40_reassembler.md R72; 20_memory.md R37). -/
def headerCount (m : Memory) : Nat := le16 (m.read 0) (m.read 1)

/-- The click flag from offset 2 (20_memory.md R39, 41_decoder.md R92). -/
def clickOperand (m : Memory) : Bool := flagByte (m.read 2)

/-- The reset flag from offset 3 (20_memory.md R39, 41_decoder.md R93). -/
def resetOperand (m : Memory) : Bool := flagByte (m.read 3)

/-- Point pair `i` from offsets `4 + 2i` and `5 + 2i` (20_memory.md R39, 43_frame_execution.md R130). -/
def pointOperand (m : Memory) (i : Nat) : Point :=
  ⟨sext8 (m.read (4 + 2 * i)), sext8 (m.read (5 + 2 * i))⟩

/-- The `len` bytes of the frame in the buffer, `rs_buf[0 .. len)` (40_reassembler.md R73). -/
def frameBytes (len : Nat) (s : State) : Option (List Byte) := memRead 0 len s

end Sys2Proof.Machine
end

