-- ==== Sys2Proof/Machine/Quantizer.lean ====
section
/-! DEFINITION. The Motion Quantizer (42_quantizer.md): the clamp, DECOMP and REPLAY, as functions. -/

namespace Sys2Proof.Machine

/-- `clamp127` (42_quantizer.md R100): the bound is symmetric. -/
def clamp127 (r : Int) : Int := if r > 127 then 127 else if r < -127 then -127 else r

/-- The components one DECOMP step produces (42_quantizer.md R102). -/
def clampAxes (r : Axes) : Axes := ⟨clamp127 r.x, clamp127 r.y, clamp127 r.v, clamp127 r.h⟩

/-- What one DECOMP step leaves (42_quantizer.md R102). -/
def remainAfter (r : Axes) : Axes := r.sub (clampAxes r)

/-- `|x| + |y| + |v| + |h|`: what each DECOMP step lowers (43_frame_execution.md R134). -/
def magnitude (r : Axes) : Nat := r.x.natAbs + r.y.natAbs + r.v.natAbs + r.h.natAbs

/-- The moves of at most `fuel` DECOMP steps from the remaining values `r`; the zero test comes before
each step (42_quantizer.md R103). -/
def decompUpTo : Nat → Axes → List Axes
  | 0, _ => []
  | fuel + 1, r => if r = Axes.zero then [] else clampAxes r :: decompUpTo fuel (remainAfter r)

/-- `DECOMP(t)` (42_quantizer.md R101 to R103). Each step lowers the magnitude, so it bounds the steps. -/
def decomp (t : Axes) : List Axes := decompUpTo (magnitude t) t

/-- `REPLAY(points)` (42_quantizer.md R109): one move per pair, verbatim. -/
def replay (points : List Point) : List Axes := points.map fun p => ⟨p.dx, p.dy, 0, 0⟩

/-- `ceil(|c| / 127)` (42_quantizer.md R104). -/
def stepsFor (c : Int) : Nat := (c.natAbs + 126) / 127

/-- The length law's right side (42_quantizer.md R104). -/
def decompLength (t : Axes) : Nat :=
  max (max (stepsFor t.x) (stepsFor t.y)) (max (stepsFor t.v) (stepsFor t.h))

end Sys2Proof.Machine
end

