-- ==== Sys2Proof/Machine/Executor.lean ====
section
/-! DEFINITION. The Frame Executor (43_frame_execution.md): the composition rule as a function, and the
step-by-step machine that realises it. -/

namespace Sys2Proof.Machine

/-- `EXEC(f)`: the SINK events a frame stands for, in order (43_frame_execution.md R120). -/
def execEvents (origin : Axes) (f : Frame) : List SinkEvent :=
  (if f.reset then (decomp origin).map .move else []) ++
  (replay f.points).map .move ++
  (if f.click then [.button true, .button false] else [])

/-- `N(f)` (43_frame_execution.md R120). -/
def eventCount (origin : Axes) (f : Frame) : Nat :=
  (if f.reset then decompLength origin else 0) + f.pointCount + (if f.click then 2 else 0)

/-- Start of a frame (43_frame_execution.md R127, R128): the decoded fields are latched and the first
stage is chosen. No event. -/
def startFrame (f : Frame) (s : State) : State :=
  { s with
    fxPointCount := f.pointCount
    fxClick := f.click
    fxReset := f.reset
    fxIdx := 0
    fxPoints := f.points
    rem := if f.reset then s.params.origin.axes else s.rem
    fxPhase := if f.reset then .decomp else .replay }

/-- Step in `FX_DECOMP` (43_frame_execution.md R129). -/
def stepDecomp (s : State) : FxStep :=
  if s.rem = Axes.zero then .took { s with fxPhase := .replay }
  else emitSink (.move (clampAxes s.rem)) { s with rem := remainAfter s.rem }

/-- Step in `FX_REPLAY` (43_frame_execution.md R130), the pair read from the owned copy (log 9). -/
def stepReplay (s : State) : FxStep :=
  if s.fxIdx = s.fxPointCount then
    .took { s with fxPhase := if s.fxClick then .press else .idle }
  else
    match s.fxPoints[s.fxIdx]? with
    | some p => emitSink (.move ⟨p.dx, p.dy, 0, 0⟩) { s with fxIdx := s.fxIdx + 1 }
    | none => .stops .pointMissing

/-- Step in `FX_PRESS` (43_frame_execution.md R132). -/
def stepPress (s : State) : FxStep := emitSink (.button true) { s with fxPhase := .release }

/-- Step in `FX_RELEASE` (43_frame_execution.md R133). -/
def stepRelease (s : State) : FxStep := emitSink (.button false) { s with fxPhase := .idle }

/-- One step of the Frame Executor (43_frame_execution.md R129 to R133). Halted (60_exceptions.md R148)
or idle, no step is enabled. -/
def fxStep (s : State) : FxStep :=
  if halted s then .waits
  else
    match s.fxPhase with
    | .idle    => .waits
    | .decomp  => stepDecomp s
    | .replay  => stepReplay s
    | .press   => stepPress s
    | .release => stepRelease s

/-- The executor run until no step is enabled, at most `fuel` steps (40_reassembler.md R77: "run the
Frame Executor until fx_phase = FX_IDLE"). -/
def runFx : Nat → State → Host.Outcome State Fault Refusal
  | 0, s => .next s
  | fuel + 1, s =>
    match fxStep s with
    | .took t  => runFx fuel t
    | .waits   => .next s
    | .stops r => .fault r

/-- Steps enough for what is left of the frame (43_frame_execution.md R134): each DECOMP step lowers the
magnitude, each REPLAY step passes one pair, at most two silent steps and two button steps remain. -/
def fxFuel (s : State) : Nat := magnitude s.rem + s.fxPoints.length + 4

/-- The frame in hand run on until `fx_phase = FX_IDLE`, or as far as the sink has answered
(40_reassembler.md R77, 43_frame_execution.md R134); idle or halted, nothing happens. -/
def runToIdle (s : State) : Host.Outcome State Fault Refusal := runFx (fxFuel s) s

/-- What is handed to the Frame Executor comes to `outcome` with `fx_phase = FX_IDLE`
(43_frame_execution.md R127). A halted block stops (60_exceptions.md R148, R152; log 8), and while another
frame executes the handoff is refused (70_reset_and_hazards.md R173, U1; log 14). -/
def whenIdle (s : State) (outcome : Host.Outcome State Fault Refusal) :
    Host.Outcome State Fault Refusal :=
  if halted s then .fault .halted
  else if s.fxPhase ≠ .idle then .refused .overlappingFeed
  else outcome

/-- The handoff of a decoded frame to the Frame Executor and its execution (43_frame_execution.md R127,
R134). Where the length of the points is not `point_count` the buffer is inconsistent with its header
and DECODE rejects it (41_decoder.md R95, 60_exceptions.md R144; log 16). -/
def execFrame (f : Frame) (s : State) : Host.Outcome State Fault Refusal :=
  whenIdle s
    (if f.points.length = f.pointCount then runToIdle (startFrame f s)
      else .next (raiseFault .decodeInconsistent (frameLength f.points.length) s))

end Sys2Proof.Machine
end

