-- ==== Sys2Proof/Machine/Frames.lean ====
section
/-! DEFINITION. The meanings of the four frame kinds (43_frame_execution.md section 2), each over the one
shared execution of a frame. -/

namespace Sys2Proof.Machine

/-- `FRAME.M` (R121): the moves of the point pairs. -/
def execFrameM (pointCount : Nat) (points : List Point) (s : State) :
    Host.Outcome State Fault Refusal :=
  execFrame ⟨pointCount, false, false, points⟩ s

/-- `FRAME.MC` (R122): the moves, then press and release. -/
def execFrameMC (pointCount : Nat) (points : List Point) (s : State) :
    Host.Outcome State Fault Refusal :=
  execFrame ⟨pointCount, true, false, points⟩ s

/-- `FRAME.RM` (R123): the decomposition of `ORIGIN`, then the moves. -/
def execFrameRM (pointCount : Nat) (points : List Point) (s : State) :
    Host.Outcome State Fault Refusal :=
  execFrame ⟨pointCount, false, true, points⟩ s

/-- `FRAME.RMC` (R124): the decomposition of `ORIGIN`, the moves, then press and release. -/
def execFrameRMC (pointCount : Nat) (points : List Point) (s : State) :
    Host.Outcome State Fault Refusal :=
  execFrame ⟨pointCount, true, true, points⟩ s

end Sys2Proof.Machine
end

