-- ==== Sys2Proof/Machine/Dispatch.lean ====
section
/-! DEFINITION. One arm per constructor of Instr. -/

namespace Sys2Proof.Machine

def exec (i : Instr) (s : State) : Host.Outcome State Fault Refusal :=
  match i with
  | .frameM pointCount points => Sys2Proof.Machine.execFrameM pointCount points s
  | .frameMC pointCount points => Sys2Proof.Machine.execFrameMC pointCount points s
  | .frameRM pointCount points => Sys2Proof.Machine.execFrameRM pointCount points s
  | .frameRMC pointCount points => Sys2Proof.Machine.execFrameRMC pointCount points s

end Sys2Proof.Machine
end

