-- ==== Sys2Proof/Machine/Reassembler.lean ====
section
/-! DEFINITION. The Stream Reassembler (40_reassembler.md): PUSH by phase, handoff, FEED. -/

namespace Sys2Proof.Machine

/-- What the Reassembler's part of a PUSH leaves: the state, and the frame it hands off, if any. -/
abbrev Reassembled := Host.Outcome (State × Option (List Byte)) Fault Refusal

/-- PUSH in `IDLE` with `rs_count = 0` (40_reassembler.md R71). -/
def pushFirstByte (b : Byte) (s : State) : Reassembled :=
  match memWrite 0 b s with
  | some t => .next ({ t with rsCount := 1 }, none)
  | none => .fault .bufferOverrun

/-- PUSH in `IDLE` with `rs_count = 1` (40_reassembler.md R72, R74): the header is resolved. -/
def pushSecondByte (b : Byte) (s : State) : Reassembled :=
  match memWrite 1 b s with
  | some t =>
    let n := headerCount t.rsBuf
    let resolved := { t with rsCount := 2, rsExpected := some (frameLength n) }
    if n ≤ s.params.maxPoints.toNat then .next ({ resolved with rsPhase := .collect }, none)
    else .next (raiseFault .frameOversize n { resolved with rsPhase := .skip }, none)
  | none => .fault .bufferOverrun

/-- PUSH in `COLLECT` with `rs_expected = some len` (40_reassembler.md R73). -/
def pushCollect (b : Byte) (len : Nat) (s : State) : Reassembled :=
  match memWrite s.rsCount b s with
  | some t =>
    if s.rsCount + 1 ≥ len then
      match frameBytes len t with
      | some frame =>
        .next ({ t with rsPhase := .idle, rsExpected := none, rsCount := 0 }, some frame)
      | none => .fault .bufferOverrun
    else .next ({ t with rsCount := s.rsCount + 1 }, none)
  | none => .fault .bufferOverrun

/-- PUSH in `SKIP` with `rs_expected = some len` (40_reassembler.md R75): the byte is counted and
discarded. -/
def pushSkip (len : Nat) (s : State) : Reassembled :=
  if s.rsCount + 1 ≥ len then
    .next ({ s with rsPhase := .idle, rsExpected := none, rsCount := 0 }, none)
  else .next ({ s with rsCount := s.rsCount + 1 }, none)

/-- The Reassembler's part of `PUSH(b)`: one of rules R71 to R75 by `rs_phase`. -/
def reassemble (b : Byte) (s : State) : Reassembled :=
  match s.rsPhase, s.rsExpected with
  | .idle, _ =>
    match s.rsCount with
    | 0 => pushFirstByte b s
    | 1 => pushSecondByte b s
    | _ + 2 => .fault .noPushRule
  | .collect, some len => pushCollect b len s
  | .skip, some len => pushSkip len s
  | _, none => .fault .noPushRule

/-- `handoff(frame)` (40_reassembler.md R76, 43_frame_execution.md R127): the frame is decoded and
executed; a buffer DECODE rejects raises `DECODE_INCONSISTENT` (41_decoder.md R95, 60_exceptions.md R144).
Either way the block is not halted and no other frame executes. -/
def handoff (frame : List Byte) (s : State) : Host.Outcome State Fault Refusal :=
  match decode frame with
  | .frame i => exec i s
  | .reject _ => whenIdle s (.next (raiseFault .decodeInconsistent frame.length s))

/-- `PUSH(b)` (40_reassembler.md R70), with the execution of the frame it completes, if any. -/
def push (b : Byte) (s : State) : Host.Outcome State Fault Refusal :=
  match reassemble b s with
  | .next (t, none) => .next t
  | .next (t, some frame) => handoff frame t
  | .fault r => .fault r
  | .refused r => .refused r

/-- When PUSH is enabled (40_reassembler.md R70). -/
def pushEnabled (s : State) : Bool := !halted s && decide (s.fxPhase = .idle)

/-- `FEED(chunk)` (40_reassembler.md R77): for each byte in order, wait until PUSH is enabled, which is to
run the frame in hand on, then PUSH; each frame a PUSH completes is executed before the next byte. Where
PUSH is still not enabled the rest of the chunk is not consumed: halted for good, or until the sink
answers (log 21). -/
def feed : List Byte → State → Host.Outcome Fed Fault Refusal
  | [], s => .next ⟨s, [], []⟩
  | b :: bs, s =>
    match runToIdle s with
    | .next w =>
      if pushEnabled w then
        match reassemble b w with
        | .next (t, none) => feed bs t
        | .next (t, some frame) =>
          match handoff frame t with
          | .next u =>
            match feed bs u with
            | .next fed => .next { fed with frames := frame :: fed.frames }
            | .fault r => .fault r
            | .refused r => .refused r
          | .fault r => .fault r
          | .refused r => .refused r
        | .fault r => .fault r
        | .refused r => .refused r
      else .next ⟨w, [], b :: bs⟩
    | .fault r => .fault r
    | .refused r => .refused r

/-- FEED of each chunk in turn (40_reassembler.md R77, R80); the results follow one another. -/
def feedAll : List (List Byte) → State → Host.Outcome Fed Fault Refusal
  | [], s => .next ⟨s, [], []⟩
  | chunk :: chunks, s =>
    match feed chunk s with
    | .next one =>
      match feedAll chunks one.state with
      | .next two =>
        .next ⟨two.state, one.frames ++ two.frames, one.unconsumed ++ two.unconsumed⟩
      | .fault r => .fault r
      | .refused r => .refused r
    | .fault r => .fault r
    | .refused r => .refused r

end Sys2Proof.Machine
end

