-- ==== Sys2Proof/Machine/Consumer.lean ====
section
/-! DEFINITION. The one sequential consumer (00_scope.md R9): which operation comes next, and the placing
of a frame so that the next operation executes it. -/

namespace Sys2Proof.Machine

/-- The transport's fatal signal taken (60_exceptions.md R146). -/
def takeTransportFatal (s : State) : State := raiseFault .transportFatal 0 s

/-- What the idle consumer does with what stands at IN: waits (40_reassembler.md R83), consumes one byte
(R70), or takes the fatal signal (60_exceptions.md R146). -/
def takeInput (s : State) : Host.Outcome State Fault Refusal :=
  match s.input with
  | [] => .next s
  | .byte b :: later => push b { s with input := later }
  | .fatal :: later => .next (takeTransportFatal { s with input := later })

/-- One executor step of a frame that is already executing (43_frame_execution.md R129 to R133); where
the sink has not answered, nothing changes (60_exceptions.md R155). -/
def continueFrame (s : State) : Host.Outcome State Fault Refusal :=
  match fxStep s with
  | .took t => .next t
  | .waits => .next s
  | .stops r => .fault r

/-- The next operation of the consumer: a reset that is asserted (70_reset_and_hazards.md R170), nothing
while halted (60_exceptions.md R148), the frame in hand before the next byte (43_frame_execution.md
R131), else what stands at IN. -/
def nextOperation (s : State) : Host.Outcome State Fault Refusal :=
  if s.resetIn then .next (afterReset s)
  else if halted s then .fault .halted
  else if s.fxPhase = .idle then takeInput s
  else continueFrame s

/-- The events the frame in a buffer emits; none where it is no frame. -/
def answersNeeded (origin : Axes) (frame : List Byte) : Nat :=
  match decode frame with
  | .frame i => eventCount origin i.frame
  | .reject _ => 0

/-- A frame placed so that the very next operation takes its last byte and executes it: every byte but
the last is in `rs_buf`, the Reassembler is in `COLLECT`, the last byte is next at IN, the executor is
idle, no reset is asserted, and a live sink has an `ok` ready for each of the frame's events (log 4). -/
def placeFrame (frame : List Byte) (s : State) : State :=
  { s with
    rsPhase := .collect
    rsExpected := some frame.length
    rsCount := frame.length - 1
    rsBuf := s.rsBuf.writeFrom 0 frame.dropLast
    fxPhase := .idle
    resetIn := false
    input := (frame.getLast?.toList).map .byte ++ s.input
    sinkAnswers :=
      List.replicate (answersNeeded s.params.origin.axes frame) .ok ++ s.sinkAnswers }

end Sys2Proof.Machine
end

