-- ==== Sys2Proof/Machine/Step.lean ====
section
/-! DEFINITION. One step of the machine, and where its next instruction is placed. -/

namespace Sys2Proof.Machine

/-- One operation of the consumer (00_scope.md R9): everything it does stands in `nextOperation`. -/
def step (s : State) : Host.Outcome State Fault Refusal := nextOperation s

/-- `s` with the frame of an opcode-table row placed where the next step executes it (log 4). -/
def State.withFetchWord (s : State) (nbits w : Nat) : State := placeFrame (tableBytes nbits w) s

end Sys2Proof.Machine
end

