-- ==== Sys2Proof/Safety.lean ====
section
/-! DEFINITION. What the statements speak of: the invariant of the machine between two operations, the shape
of an output trace, what a byte stream stands for, and the states an operation is ready in. -/

namespace Sys2Proof.Machine

/-- A value between 0 and a target (42_quantizer.md R108). -/
def between (r target : Int) : Prop := (0 ≤ r ∧ r ≤ target) ∨ (target ≤ r ∧ r ≤ 0)

/-- Every axis between 0 and its target (42_quantizer.md R108). -/
def axesBetween (r target : Axes) : Prop :=
  between r.x target.x ∧ between r.y target.y ∧ between r.v target.v ∧ between r.h target.h

/-- Component number `k` of one axis with target `c` (42_quantizer.md R107): with `q = |c| div 127` and
`m = |c| mod 127`, `q` times `sign(c)*127`, then `sign(c)*m`, then 0. -/
def axisShape (c : Int) (k : Nat) (e : Int) : Prop :=
  (k < c.natAbs / 127 → e = c.sign * 127) ∧
  (k = c.natAbs / 127 → e = c.sign * (c.natAbs % 127 : Nat)) ∧
  (c.natAbs / 127 < k → e = 0)

/-- Every component in `[-127, 127]` (42_quantizer.md R106). -/
def within127 (m : Axes) : Prop :=
  (-127 ≤ m.x ∧ m.x ≤ 127) ∧ (-127 ≤ m.y ∧ m.y ≤ 127) ∧
  (-127 ≤ m.v ∧ m.v ≤ 127) ∧ (-127 ≤ m.h ∧ m.h ≤ 127)

/-- Every component an `i8` (42_quantizer.md R112). -/
def withinI8 (m : Axes) : Prop :=
  (-128 ≤ m.x ∧ m.x ≤ 127) ∧ (-128 ≤ m.y ∧ m.y ≤ 127) ∧
  (-128 ≤ m.v ∧ m.v ≤ 127) ∧ (-128 ≤ m.h ∧ m.h ≤ 127)

/-- A frame buffer of a session: canonical, and nothing listed at or beyond `BUF_CAP` (20_memory.md R32,
40_reassembler.md R79). -/
structure BufferOf (p : Params) (m : Memory) : Prop where
  canonical : m.wf = true
  inside    : ∀ c ∈ m, c.1 < p.bufCap

/-- The Reassembler's invariants of 10_state.md R11. -/
structure ReassemblerInv (s : State) : Prop where
  idle_iff : s.rsPhase = .idle ↔ s.rsExpected = none
  idle_count : s.rsPhase = .idle → s.rsCount ≤ 1
  collect : s.rsPhase = .collect → ∃ len, s.rsExpected = some len ∧ 4 ≤ len ∧
    len ≤ s.params.bufCap ∧ len % 2 = 0 ∧ 2 ≤ s.rsCount ∧ s.rsCount < len
  skip : s.rsPhase = .skip → ∃ len, s.rsExpected = some len ∧ s.params.bufCap < len ∧
    len ≤ 131074 ∧ len % 2 = 0 ∧ 2 ≤ s.rsCount ∧ s.rsCount < len
  header : s.rsPhase = .collect → s.rsExpected = some (frameLength (headerCount s.rsBuf))

/-- While a frame executes: the Reassembler is idle (43_frame_execution.md R131), the registers are in
range (10_state.md R12), the frame fits the buffer (20_memory.md R33, 40_reassembler.md R79), the registers
hold the frame that stands there (R12, 20_memory.md R42), and the remaining displacement lies between 0
and `ORIGIN` (42_quantizer.md R108). -/
structure ExecutorInv (s : State) : Prop where
  reassembler_idle : s.fxPhase ≠ .idle → s.rsPhase = .idle ∧ s.rsCount = 0
  count : s.fxPhase ≠ .idle → s.fxPointCount ≤ 65535
  capacity : s.fxPhase ≠ .idle → s.fxPointCount ≤ s.params.maxPoints.toNat
  idx : s.fxPhase ≠ .idle → s.fxIdx ≤ s.fxPointCount
  points : s.fxPhase ≠ .idle → s.fxPoints.length = s.fxPointCount
  points_i8 : s.fxPhase ≠ .idle → s.fxPoints.all Point.wf = true
  header_held : s.fxPhase ≠ .idle → headerCount s.rsBuf = s.fxPointCount
  click_held : s.fxPhase ≠ .idle → clickOperand s.rsBuf = s.fxClick
  reset_held : s.fxPhase ≠ .idle → resetOperand s.rsBuf = s.fxReset
  points_held : s.fxPhase ≠ .idle →
    ∀ i < s.fxPointCount, s.fxPoints[i]? = some (pointOperand s.rsBuf i)
  decomp_stage : s.fxPhase = .decomp →
    s.fxReset = true ∧ s.fxIdx = 0 ∧ axesBetween s.rem s.params.origin.axes
  button_stage : s.fxPhase = .press ∨ s.fxPhase = .release →
    s.fxClick = true ∧ s.fxIdx = s.fxPointCount

/-- The invariant that holds between any two operations of the consumer (10_state.md R11, R12). -/
structure Inv (s : State) : Prop where
  buffer      : BufferOf s.params s.rsBuf
  atReset     : BufferOf s.params s.bufAfterReset
  reassembler : ReassemblerInv s
  executor    : ExecutorInv s

/-- Whether an event is the DIAG event of a cause. -/
def isDiagOf (c : Cause) : Event → Bool
  | .diag d _ => d == c
  | .sink _ => false

/-- Each sticky flag tells whether its fault stands in the trace (10_state.md R16, 60_exceptions.md
R140). -/
def flagsTellTrace (s : State) : Prop :=
  ∀ c, flagIsSet c s.stFlags = s.trace.any (isDiagOf c)

/-- How a trace stands with its Button events (43_frame_execution.md R126): no press is open, a press is
the last SINK event with nothing after it, a press is open and `SINK_FATAL` followed it, or the pairing
is broken. -/
inductive ButtonScan where
  | closed
  | pressed
  | cut
  | broken
deriving DecidableEq, Repr

/-- One more event of the trace. After a press only the release may come, or the `SINK_FATAL` that
halts the block. -/
def scanEvent (b : ButtonScan) (e : Event) : ButtonScan :=
  match b, e with
  | .closed, .sink (.button true)   => .pressed
  | .closed, .sink (.button false)  => .broken
  | .closed, _                      => .closed
  | .pressed, .sink (.button false) => .closed
  | .pressed, .diag .sinkFatal _    => .cut
  | .pressed, _                     => .broken
  | .cut, _                         => .broken
  | .broken, _                      => .broken

/-- The Button events of a whole trace. -/
def scanTrace (es : List Event) : ButtonScan := es.foldl scanEvent .closed

/-- Button events come only as press then release, with no event between them, and a press is open
exactly while the executor is in `FX_RELEASE` (43_frame_execution.md R126, R132, R133). -/
def buttonsPaired (s : State) : Prop :=
  scanTrace s.trace =
    if s.fxPhase = .release then (if halted s then .cut else .pressed) else .closed

/-- The moves of a trace are QuantizedMoves: four `i8` components (42_quantizer.md R112). -/
def movesFit (es : List Event) : Prop := ∀ m, Event.sink (.move m) ∈ es → withinI8 m

/-- The executor can take an operation of the Reassembler's: no reset, not halted, no frame executing
(40_reassembler.md R70). -/
def readyForInput (s : State) : Prop :=
  s.resetIn = false ∧ halted s = false ∧ s.fxPhase = .idle

/-- A frame is executing and its next step may be taken: no reset, not halted (43_frame_execution.md
R131, 60_exceptions.md R148). -/
def executing (s : State) : Prop :=
  s.resetIn = false ∧ halted s = false ∧ s.fxPhase ≠ .idle

/-- The executor's next step is a SINK event, not a silent step (43_frame_execution.md R129 to R133). -/
def eventDue (s : State) : Prop :=
  match s.fxPhase with
  | .idle    => False
  | .decomp  => s.rem ≠ Axes.zero
  | .replay  => s.fxIdx ≠ s.fxPointCount
  | .press   => True
  | .release => True

/-- The block stands at a frame boundary: idle, nothing pending, not halted (10_state.md R18). -/
def atBoundary (s : State) : Prop :=
  s.rsPhase = .idle ∧ s.rsExpected = none ∧ s.rsCount = 0 ∧ s.fxPhase = .idle ∧ halted s = false

/-- Two buffers that hold the same bytes of the frame in progress (10_state.md R11); in `SKIP` none of the
frame's bytes will be read. -/
def sameFrameBytes (s : State) (m : Memory) : Prop :=
  s.rsPhase ≠ .skip → ∀ k < s.rsCount, m.read k = s.rsBuf.read k

/-- Whether a unit of the stream is kept (40_reassembler.md R81). -/
def unitKept (p : Params) (u : List Byte) : Bool := decide (declaredCount u ≤ p.maxPoints.toNat)

/-- The events of one unit: those of its frame, or the one DIAG event of its drop (40_reassembler.md
R81). -/
def unitEvents (p : Params) (u : List Byte) : List Event :=
  if unitKept p u then
    match decode u with
    | .frame i => (execEvents p.origin.axes i.frame).map .sink
    | .reject _ => [.diag .decodeInconsistent u.length]
  else [.diag .frameOversize (declaredCount u)]

/-- The events the remainder of a stream has already caused: an oversize frame is reported at its second
byte (40_reassembler.md R74, R81). -/
def remainderEvents (p : Params) (r : List Byte) : List Event :=
  if 2 ≤ r.length ∧ unitKept p r = false then [.diag .frameOversize (declaredCount r)] else []

/-- The events of a byte stream that begins at a frame boundary (40_reassembler.md R81). -/
def streamEvents (p : Params) (bytes : List Byte) : List Event :=
  (parse bytes).1.flatMap (unitEvents p) ++ remainderEvents p (parse bytes).2

/-- Whether an event is a SINK event. -/
def isSink : Event → Bool
  | .sink _ => true
  | .diag _ _ => false

/-- How many answers of the sink a list of events takes. -/
def sinkCalls (es : List Event) : Nat := (es.filter isSink).length

/-- The sum of each axis over a sequence of moves (42_quantizer.md R105). -/
def sumAxes (ms : List Axes) : Axes := ms.foldr Axes.add Axes.zero

end Sys2Proof.Machine
end

