-- ==== Sys2Proof/Certificates/Slice0/Obligations.lean ====
section
/-! DEFINITION. The statements for the provers, from the numbered rules of spec/, file by file. A statement
about every state is a statement about every `MAX_POINTS` and every `ORIGIN`, since both are fields of
the state. -/

open Sys2Proof Sys2Proof.Machine

/-! ### 10_state.md and 70_reset_and_hazards.md: state and reset -/

/-- R22, R170: reset leaves Reassembler and executor idle, nothing counted, no flag, an empty trace, in
whatever session, and whatever bytes the buffer holds. -/
def Obligations.ResetLeavesIdle : Prop :=
  ∀ (p : Params) (contents : Memory),
    let r := State.resetWith p contents
    r.rsPhase = .idle ∧ r.rsExpected = none ∧ r.rsCount = 0 ∧ r.rsBuf = contents ∧
    r.fxPhase = .idle ∧ r.stFlags = 0 ∧ halted r = false ∧ r.trace = [] ∧ r.params = p

/-- R170, R171: an asserted reset is taken in every state, halted and mid-frame ones included; it leaves
the block as after reset in the same session, with the bytes chance leaves in the buffer (log 3), emits
nothing, and the bytes and answers the environment has waiting stay outside (log 7). -/
def Obligations.ResetIsTakenInEveryState : Prop :=
  ∀ s : State, s.resetIn = true →
    ∃ t, step s = .next t ∧
      t.rsPhase = .idle ∧ t.rsExpected = none ∧ t.rsCount = 0 ∧ t.fxPhase = .idle ∧
      t.stFlags = 0 ∧ halted t = false ∧ t.trace = [] ∧ t.params = s.params ∧
      t.rsBuf = s.bufAfterReset ∧
      t.resetIn = false ∧ t.input = s.input ∧ t.sinkAnswers = s.sinkAnswers

/-- The invariant holds after reset, in every session and whatever bytes the buffer holds. -/
def Obligations.InvHoldsAfterReset : Prop :=
  ∀ (p : Params) (contents : Memory), BufferOf p contents → Inv (State.resetWith p contents)

/-- R11, R12, R79: the invariant holds after every step that began in a state with it. -/
def Obligations.StepKeepsInv : Prop :=
  ∀ s t : State, Inv s → step s = .next t → Inv t

/-- R35, R79, R98, R148: from a state with the invariant a step stops only because the block is halted. -/
def Obligations.StepStopsOnlyWhenHalted : Prop :=
  ∀ s : State, Inv s → s.resetIn = false → halted s = false → ∃ t, step s = .next t

/-- R17: no step changes the configuration. -/
def Obligations.StepKeepsConfiguration : Prop :=
  ∀ s t : State, step s = .next t → t.params = s.params

/-- R16: a set flag stays set until reset. -/
def Obligations.FlagsClearedOnlyByReset : Prop :=
  ∀ (s t : State) (c : Cause), s.resetIn = false → step s = .next t →
    flagIsSet c s.stFlags = true → flagIsSet c t.stFlags = true

/-- R16, R140, R141: a flag is set exactly when its fault's event stands in the trace. -/
def Obligations.FlagsTellTheTrace : Prop :=
  ∀ s t : State, flagsTellTrace s → step s = .next t → flagsTellTrace t

/-- R21: without a reset the trace only grows at its end. -/
def Obligations.TraceOnlyGrows : Prop :=
  ∀ s t : State, s.resetIn = false → step s = .next t → ∃ new, t.trace = s.trace ++ new

/-- R23, R111: what a frame emits does not depend on the executor registers earlier frames left. -/
def Obligations.FrameIgnoresEarlierRegisters : Prop :=
  ∀ (i : Instr) (s t : State) (n idx : Nat) (c r : Bool) (ps : List Point) (m : Axes),
    i.wf = true → exec i s = .next t →
    ∃ u, exec i { s with fxPointCount := n, fxClick := c, fxReset := r, fxIdx := idx,
                         fxPoints := ps, rem := m } = .next u ∧
      u.trace = t.trace ∧ u.stFlags = t.stFlags ∧ u.fxPhase = t.fxPhase ∧
      u.sinkAnswers = t.sinkAnswers ∧ u.fxIdx = t.fxIdx

/-! ### 20_memory.md: the frame buffer and ordering -/

/-- R32, R34: a byte written is read back, every other offset reads as before, and the buffer stays in its
canonical form. -/
def Obligations.BufferWriteThenRead : Prop :=
  ∀ (m : Memory) (a : Nat) (b : Byte),
    (m.write a b).read a = b ∧
    (∀ k, k ≠ a → (m.write a b).read k = m.read k) ∧
    (m.wf = true → (m.write a b).wf = true)

/-- R42, R131: while a frame executes, a step consumes no byte and changes neither the buffer nor the
Reassembler. -/
def Obligations.ExecutingFrameIsUndisturbed : Prop :=
  ∀ s t : State, executing s → step s = .next t →
    t.input = s.input ∧ t.rsBuf = s.rsBuf ∧ t.rsPhase = s.rsPhase ∧
    t.rsExpected = s.rsExpected ∧ t.rsCount = s.rsCount

/-! ### 30_encoding.md and 41_decoder.md: decode and encode -/

/-- R97: decoding an encoded frame gives it back, every operand at every value; encoding a decoded buffer
gives the buffer with canonical flag bytes. -/
def Obligations.DecodeAndEncodeAgree : Prop :=
  (∀ i : Instr, i.wf = true → decode (encode i) = .frame i) ∧
  (∀ (buf : List Byte) (i : Instr), decode buf = .frame i →
    i.wf = true ∧ encode i = canonicalFlags buf)

/-- R90, R95: DECODE rejects exactly the buffers whose length is not the declared one. -/
def Obligations.DecodeRejectsWrongLength : Prop :=
  ∀ buf : List Byte,
    (∃ why, decode buf = .reject why) ↔
      buf.length < 2 ∨ buf.length ≠ frameLength (declaredCount buf)

/-- R91 to R94, R54, R55: what DECODE reads from the bytes of a frame. -/
def Obligations.DecodedFieldsAreTheBytes : Prop :=
  ∀ (b0 b1 b2 b3 : Byte) (payload : List Byte), payload.length = 2 * le16 b0 b1 →
    ∃ i, decode (b0 :: b1 :: b2 :: b3 :: payload) = .frame i ∧
      i.frame.pointCount = b0.toNat + 256 * b1.toNat ∧
      (i.frame.click = true ↔ b2 = 1) ∧ (i.frame.reset = true ↔ b3 = 1) ∧
      i.frame.points.length = i.frame.pointCount ∧
      ∀ (k : Nat) (bx by' : Byte), payload[2 * k]? = some bx → payload[2 * k + 1]? = some by' →
        i.frame.points[k]? = some ⟨sext8 bx, sext8 by'⟩

/-- R57: the two flag bytes select the frame kind, one for every header. -/
def Obligations.FlagBytesSelectTheKind : Prop :=
  ∀ (b0 b1 b2 b3 : Byte) (payload : List Byte), payload.length = 2 * le16 b0 b1 →
    let got := decode (b0 :: b1 :: b2 :: b3 :: payload)
    let n := le16 b0 b1
    let ps := decodePoints payload
    (b2 ≠ 1 → b3 ≠ 1 → got = .frame (.frameM n ps)) ∧
    (b2 = 1 → b3 ≠ 1 → got = .frame (.frameMC n ps)) ∧
    (b2 ≠ 1 → b3 = 1 → got = .frame (.frameRM n ps)) ∧
    (b2 = 1 → b3 = 1 → got = .frame (.frameRMC n ps))

/-- The words of 95_test_vectors.md B3 and B7, one or more of each frame kind, decode as written there. -/
def Obligations.KnownFramesDecode : Prop :=
  decode [0x02, 0x00, 0x01, 0x00, 0x05, 0x05, 0xFA, 0xFA] =
    .frame (.frameMC 2 [⟨5, 5⟩, ⟨-6, -6⟩]) ∧
  decode [0x01, 0x00, 0x02, 0xFF, 0x80, 0x7F] = .frame (.frameM 1 [⟨-128, 127⟩]) ∧
  decode [0x01, 0x00, 0x00, 0x01, 0x02, 0x03] = .frame (.frameRM 1 [⟨2, 3⟩]) ∧
  decode [0x01, 0x00, 0x01, 0x01, 0x01, 0x01] = .frame (.frameRMC 1 [⟨1, 1⟩])

/-! ### 40_reassembler.md: PUSH, FEED and the stream -/

/-- R71: the first header byte. -/
def Obligations.FirstHeaderByteIsStored : Prop :=
  ∀ (s : State) (b : Byte) (later : List InItem),
    readyForInput s → s.input = .byte b :: later → s.rsPhase = .idle → s.rsCount = 0 →
    step s = .next { s with input := later, rsBuf := s.rsBuf.write 0 b, rsCount := 1 }

/-- R72: the second header byte of a frame that is not oversize. -/
def Obligations.SecondHeaderByteStartsCollecting : Prop :=
  ∀ (s : State) (b lo : Byte) (later : List InItem),
    readyForInput s → s.input = .byte b :: later → s.rsPhase = .idle → s.rsCount = 1 →
    s.rsBuf.read 0 = lo → lo.toNat + 256 * b.toNat ≤ s.params.maxPoints.toNat →
    step s = .next { s with
      input := later, rsBuf := s.rsBuf.write 1 b, rsCount := 2, rsPhase := .collect,
      rsExpected := some (4 + 2 * (lo.toNat + 256 * b.toNat)) }

/-- R74, R143: the second header byte of an oversize frame. That the whole declared frame is dropped is the
spec's decision D5 (log 12). -/
def Obligations.OversizeHeaderIsSkippedAndReported : Prop :=
  ∀ (s : State) (b lo : Byte) (later : List InItem),
    readyForInput s → s.input = .byte b :: later → s.rsPhase = .idle → s.rsCount = 1 →
    s.rsBuf.read 0 = lo → s.params.maxPoints.toNat < lo.toNat + 256 * b.toNat →
    step s = .next { s with
      input := later, rsBuf := s.rsBuf.write 1 b, rsCount := 2, rsPhase := .skip,
      rsExpected := some (4 + 2 * (lo.toNat + 256 * b.toNat)),
      stFlags := s.stFlags ||| 0b0001,
      trace := s.trace ++ [.diag .frameOversize (lo.toNat + 256 * b.toNat)] }

/-- R73: a flag or point byte that does not complete the frame. -/
def Obligations.CollectedByteIsStored : Prop :=
  ∀ (s : State) (b : Byte) (later : List InItem) (len : Nat),
    readyForInput s → s.input = .byte b :: later → s.rsPhase = .collect →
    s.rsExpected = some len → s.rsCount + 1 < len → len ≤ s.params.bufCap →
    step s = .next { s with
      input := later, rsBuf := s.rsBuf.write s.rsCount b, rsCount := s.rsCount + 1 }

/-- R73, R76, R127: a step runs the decoded frame. When the next byte completes the frame in the buffer
and the bytes decode to an instruction, the step is `exec` of it, in the state in which the byte is
consumed and stored and the Reassembler is idle again. -/
def Obligations.CompletingByteRunsTheFrame : Prop :=
  ∀ (s : State) (b : Byte) (later : List InItem) (len : Nat) (stored : List Byte) (i : Instr),
    readyForInput s → s.input = .byte b :: later → s.rsPhase = .collect →
    s.rsExpected = some len → s.rsCount + 1 = len → len ≤ s.params.bufCap →
    memRead 0 s.rsCount s = some stored → decode (stored ++ [b]) = .frame i →
    step s = exec i { s with
      input := later, rsBuf := s.rsBuf.write s.rsCount b,
      rsPhase := .idle, rsExpected := none, rsCount := 0 }

/-- R75: a byte of a dropped frame is counted and discarded, and the last one ends the skip: the spec's
decision D5 (log 12). -/
def Obligations.SkippedByteIsDiscarded : Prop :=
  ∀ (s : State) (b : Byte) (later : List InItem) (len : Nat),
    readyForInput s → s.input = .byte b :: later → s.rsPhase = .skip → s.rsExpected = some len →
    (s.rsCount + 1 < len → step s = .next { s with input := later, rsCount := s.rsCount + 1 }) ∧
    (s.rsCount + 1 = len → step s = .next { s with
      input := later, rsPhase := .idle, rsExpected := none, rsCount := 0 })

/-- R83, R142: while no byte arrives nothing changes, whatever part of a frame is pending. That the wait is
a step is the model's (log 17). -/
def Obligations.TruncatedFramePends : Prop :=
  ∀ s : State, readyForInput s → s.input = [] → step s = .next s

/-- R78, R80: a zero-length chunk changes nothing, and feeding chunks one after the other, however the
bytes are cut, comes to the same as feeding their concatenation: the same frames handed off, the same
trace and state, the same bytes left unconsumed. -/
def Obligations.ChunkBoundariesDoNotMatter : Prop :=
  (∀ s : State, feed [] s = .next ⟨s, [], []⟩) ∧
  (∀ (chunks : List (List Byte)) (s : State), feedAll chunks s = feed chunks.flatten s)

/-- R70, R77: a step at IN is PUSH of the byte that stands there. -/
def Obligations.StepAtInputIsPush : Prop :=
  ∀ (s : State) (b : Byte) (later : List InItem),
    readyForInput s → s.input = .byte b :: later → step s = push b { s with input := later }

/-- R81, R82: from a frame boundary, with a live sink, a stream of any bytes hands off exactly its kept
units in order, emits exactly the events of its units and its remainder in order, and leaves the
Reassembler where the remainder alone leaves it, with the remainder's bytes in the buffer. For streams with
oversize frames this rests on the spec's decision D5, that such a frame is counted through (log 12). -/
def Obligations.StreamIsParsedIntoFrames : Prop :=
  ∀ (s : State) (bytes : List Byte) (later : List SinkAnswer),
    atBoundary s →
    s.sinkAnswers = List.replicate (sinkCalls (streamEvents s.params bytes)) .ok ++ later →
    ∃ t, feed bytes s = .next ⟨t, (parse bytes).1.filter (unitKept s.params), []⟩ ∧
      t.trace = s.trace ++ streamEvents s.params bytes ∧
      t.sinkAnswers = later ∧ t.fxPhase = .idle ∧ halted t = false ∧
      (∃ u, feed (parse bytes).2 s = .next ⟨u, [], []⟩ ∧
        t.rsPhase = u.rsPhase ∧ t.rsExpected = u.rsExpected ∧ t.rsCount = u.rsCount) ∧
      (t.rsPhase ≠ .skip →
        t.rsCount = (parse bytes).2.length ∧
        ∀ k < t.rsCount, some (t.rsBuf.read k) = (parse bytes).2[k]?)

/-! ### 42_quantizer.md: the decomposition and the replay -/

/-- R105: the sum law. -/
def Obligations.DecompSumsToTarget : Prop := ∀ t : Axes, sumAxes (decomp t) = t

/-- R104: the length law. -/
def Obligations.DecompLengthLaw : Prop := ∀ t : Axes, (decomp t).length = decompLength t

/-- R106, R103: the range law, and no move of the sequence is zero on every axis. -/
def Obligations.DecompMovesAreInRange : Prop :=
  ∀ (t m : Axes), m ∈ decomp t → within127 m ∧ m ≠ Axes.zero

/-- R107: the shape of each axis: full steps, then the short one, then zeros. -/
def Obligations.DecompAxisShape : Prop :=
  ∀ (t : Axes) (k : Nat) (m : Axes), (decomp t)[k]? = some m →
    axisShape t.x k m.x ∧ axisShape t.y k m.y ∧ axisShape t.v k m.v ∧ axisShape t.h k m.h

/-- R108: a step brings a remaining value nearer to 0 by at most 127, never past 0, and so keeps it
between 0 and its target. -/
def Obligations.RemainingNeverOvershoots : Prop :=
  ∀ r target : Int, between r target →
    between (r - clamp127 r) r ∧ between (r - clamp127 r) target ∧
    (r - clamp127 r).natAbs + min r.natAbs 127 = r.natAbs

/-! ### 43_frame_execution.md: the four frame kinds and the executor -/

/-- R121: `FRAME.M` with a live sink, for every list of pairs, the empty one included. -/
def Obligations.FrameMEmitsItsMoves : Prop :=
  ∀ (s : State) (n : Nat) (ps : List Point) (later : List SinkAnswer),
    halted s = false → s.fxPhase = .idle → ps.length = n →
    s.sinkAnswers = List.replicate n .ok ++ later →
    exec (.frameM n ps) s = .next { s with
      fxPointCount := n, fxClick := false, fxReset := false, fxIdx := n, fxPoints := ps,
      sinkAnswers := later,
      trace := s.trace ++ ps.map fun p => .sink (.move ⟨p.dx, p.dy, 0, 0⟩) }

/-- R122: `FRAME.MC` with a live sink. -/
def Obligations.FrameMCEmitsMovesThenClick : Prop :=
  ∀ (s : State) (n : Nat) (ps : List Point) (later : List SinkAnswer),
    halted s = false → s.fxPhase = .idle → ps.length = n →
    s.sinkAnswers = List.replicate (n + 2) .ok ++ later →
    exec (.frameMC n ps) s = .next { s with
      fxPointCount := n, fxClick := true, fxReset := false, fxIdx := n, fxPoints := ps,
      sinkAnswers := later,
      trace := s.trace ++ (ps.map fun p => .sink (.move ⟨p.dx, p.dy, 0, 0⟩)) ++
        [.sink (.button true), .sink (.button false)] }

/-- R123: `FRAME.RM` with a live sink: the decomposition of `ORIGIN`, then the moves. -/
def Obligations.FrameRMEmitsOriginThenMoves : Prop :=
  ∀ (s : State) (n : Nat) (ps : List Point) (later : List SinkAnswer),
    halted s = false → s.fxPhase = .idle → ps.length = n →
    s.sinkAnswers =
      List.replicate ((decomp s.params.origin.axes).length + n) .ok ++ later →
    exec (.frameRM n ps) s = .next { s with
      fxPointCount := n, fxClick := false, fxReset := true, fxIdx := n, fxPoints := ps,
      rem := Axes.zero, sinkAnswers := later,
      trace := s.trace ++ ((decomp s.params.origin.axes).map fun m => .sink (.move m)) ++
        ps.map fun p => .sink (.move ⟨p.dx, p.dy, 0, 0⟩) }

/-- R124: `FRAME.RMC` with a live sink: the decomposition, the moves, press and release. -/
def Obligations.FrameRMCEmitsOriginMovesClick : Prop :=
  ∀ (s : State) (n : Nat) (ps : List Point) (later : List SinkAnswer),
    halted s = false → s.fxPhase = .idle → ps.length = n →
    s.sinkAnswers =
      List.replicate ((decomp s.params.origin.axes).length + n + 2) .ok ++ later →
    exec (.frameRMC n ps) s = .next { s with
      fxPointCount := n, fxClick := true, fxReset := true, fxIdx := n, fxPoints := ps,
      rem := Axes.zero, sinkAnswers := later,
      trace := s.trace ++ ((decomp s.params.origin.axes).map fun m => .sink (.move m)) ++
        (ps.map fun p => .sink (.move ⟨p.dx, p.dy, 0, 0⟩)) ++
        [.sink (.button true), .sink (.button false)] }

/-- The frame of all four kinds, however the sink answers: no register of the Reassembler, no byte of the
buffer, no configuration, no input and no status flag but `ST_SINK_FATAL` changes; a frame without the
reset flag leaves `rem_*` alone. -/
def Obligations.FramesTouchOnlyTheExecutor : Prop :=
  ∀ (i : Instr) (s t : State), i.wf = true → exec i s = .next t →
    t.params = s.params ∧ t.rsPhase = s.rsPhase ∧ t.rsExpected = s.rsExpected ∧
    t.rsCount = s.rsCount ∧ (∀ a, t.rsBuf.read a = s.rsBuf.read a) ∧
    t.input = s.input ∧ t.resetIn = s.resetIn ∧ t.bufAfterReset = s.bufAfterReset ∧
    (t.stFlags = s.stFlags ∨ t.stFlags = s.stFlags ||| 0b0100) ∧
    (i.frame.reset = false → t.rem = s.rem)

/-- R134: with a live sink the executor is done within `N(f) + 3` steps of the start, having emitted
`EXEC(f)`. -/
def Obligations.ExecutorRealisesExec : Prop :=
  ∀ (i : Instr) (s : State) (later : List SinkAnswer),
    i.wf = true → halted s = false →
    s.sinkAnswers =
      List.replicate (eventCount s.params.origin.axes i.frame) .ok ++ later →
    ∃ t, runFx (eventCount s.params.origin.axes i.frame + 3) (startFrame i.frame s) = .next t ∧
      t.fxPhase = .idle ∧ t.sinkAnswers = later ∧
      t.trace = s.trace ++ (execEvents s.params.origin.axes i.frame).map .sink

/-- R120, R104: `N(f)` is the number of events of a frame. -/
def Obligations.EventCountIsTheNumberOfEvents : Prop :=
  ∀ (origin : Axes) (f : Frame), f.wf = true →
    (execEvents origin f).length = eventCount origin f

/-- R110, R106: where no component of a frame's pairs is -128, every move it adds lies in
`[-127, 127]`. -/
def Obligations.MovesAreInRangeWithoutMinus128 : Prop :=
  ∀ (i : Instr) (s t : State), i.wf = true → (∀ p ∈ i.frame.points, p.dx ≠ -128 ∧ p.dy ≠ -128) →
    exec i s = .next t →
    ∃ new, t.trace = s.trace ++ new ∧ ∀ m, Event.sink (.move m) ∈ new → within127 m

/-- R129, R102: a step in `FX_DECOMP`, as the next step of the machine. -/
def Obligations.DecompStepClampsAndSubtracts : Prop :=
  ∀ (s : State) (later : List SinkAnswer), executing s → s.fxPhase = .decomp →
    (s.rem = ⟨0, 0, 0, 0⟩ → step s = .next { s with fxPhase := .replay }) ∧
    (s.rem ≠ ⟨0, 0, 0, 0⟩ → s.sinkAnswers = .ok :: later →
      step s = .next { s with
        sinkAnswers := later,
        trace := s.trace ++ [.sink (.move
          ⟨clamp127 s.rem.x, clamp127 s.rem.y, clamp127 s.rem.v, clamp127 s.rem.h⟩)],
        rem := ⟨s.rem.x - clamp127 s.rem.x, s.rem.y - clamp127 s.rem.y,
                s.rem.v - clamp127 s.rem.v, s.rem.h - clamp127 s.rem.h⟩ })

/-- R130, R109: a step in `FX_REPLAY`: the pair at `4 + 2*fx_idx`, which lies inside the buffer (R33), is
emitted verbatim, and after the last pair the click is started or the frame ends. -/
def Obligations.ReplayStepEmitsTheBufferedPair : Prop :=
  ∀ (s : State) (later : List SinkAnswer), Inv s → executing s → s.fxPhase = .replay →
    (s.fxIdx = s.fxPointCount →
      step s = .next { s with fxPhase := if s.fxClick then .press else .idle }) ∧
    (s.fxIdx ≠ s.fxPointCount →
      ∃ bx by' : Byte, memRead (4 + 2 * s.fxIdx) 2 s = some [bx, by'] ∧
        (s.sinkAnswers = .ok :: later →
          step s = .next { s with
            sinkAnswers := later, fxIdx := s.fxIdx + 1,
            trace := s.trace ++ [.sink (.move ⟨sext8 bx, sext8 by', 0, 0⟩)] }))

/-- R132, R133: press and release. -/
def Obligations.PressThenRelease : Prop :=
  ∀ (s : State) (later : List SinkAnswer), executing s → s.sinkAnswers = .ok :: later →
    (s.fxPhase = .press → step s = .next { s with
      fxPhase := .release, sinkAnswers := later, trace := s.trace ++ [.sink (.button true)] }) ∧
    (s.fxPhase = .release → step s = .next { s with
      fxPhase := .idle, sinkAnswers := later, trace := s.trace ++ [.sink (.button false)] })

/-- R126: Button events come only as press then release, nothing between them but the `SINK_FATAL` that
cuts the frame off. -/
def Obligations.ButtonsComeInPairs : Prop :=
  ∀ s t : State, buttonsPaired s → step s = .next t → buttonsPaired t

/-- R112: every move ever emitted has four `i8` components, given the invariant. -/
def Obligations.MovesFitTheReport : Prop :=
  ∀ s t : State, Inv s → movesFit s.trace → step s = .next t → movesFit t.trace

/-! ### 60_exceptions.md: faults, halt, collaborators -/

/-- R145: the sink answers `fatal` to the event number `k` of a frame (counted from 0): the events up to
and including it stand in the trace, then `DIAG.Fault(3, 0)`, and the block is halted. -/
def Obligations.FatalAnswerHaltsMidFrame : Prop :=
  ∀ (i : Instr) (s : State) (k : Nat) (later : List SinkAnswer),
    i.wf = true → halted s = false → s.fxPhase = .idle →
    k < eventCount s.params.origin.axes i.frame →
    s.sinkAnswers = List.replicate k .ok ++ .fatal :: later →
    ∃ t, exec i s = .next t ∧
      t.trace = s.trace ++ ((execEvents s.params.origin.axes i.frame).take (k + 1)).map .sink ++
        [.diag .sinkFatal 0] ∧
      t.stFlags = s.stFlags ||| 0b0100 ∧ halted t = true ∧ t.sinkAnswers = later

/-- R145: the entry keeps the interrupted step's own updates and changes nothing else: a step whose event
draws `fatal` is the same step with `ok`, then the flag and the DIAG event. -/
def Obligations.FatalAnswerKeepsTheStepsUpdates : Prop :=
  ∀ (s t : State) (later : List SinkAnswer), executing s → s.sinkAnswers = .fatal :: later →
    step { s with sinkAnswers := .ok :: later } = .next t → t.sinkAnswers = later →
    step s = .next { t with
      stFlags := t.stFlags ||| 0b0100, trace := t.trace ++ [.diag .sinkFatal 0] }

/-- R155: answers that come late complete a frame as if they had been there from the start (the timing of
answers is the model's, log 5). That the frame waits for them is `ExecutorWaitsForTheSink`. -/
def Obligations.LateAnswersChangeNothing : Prop :=
  ∀ (i : Instr) (s t : State) (early late : List SinkAnswer),
    i.wf = true → exec i { s with sinkAnswers := early } = .next t →
    exec i { s with sinkAnswers := early ++ late } =
      runToIdle { t with sinkAnswers := t.sinkAnswers ++ late }

/-- R146: the transport's fatal signal, taken when a PUSH would be enabled. That the signal stands in the
order of IN is the model's (log 15). -/
def Obligations.TransportFatalHalts : Prop :=
  ∀ (s : State) (later : List InItem), readyForInput s → s.input = .fatal :: later →
    step s = .next { s with
      input := later, stFlags := s.stFlags ||| 0b1000,
      trace := s.trace ++ [.diag .transportFatal 0] }

/-- R148: halted, nothing is enabled until reset: every step stops as `halted`, a frame or a buffer
handed to the executor does too (that the stop is a named fault is the model's, log 8), and FEED consumes
nothing. -/
def Obligations.HaltedStopsEverything : Prop :=
  ∀ (s : State) (i : Instr), halted s = true →
    (s.resetIn = false → step s = .fault .halted) ∧ exec i s = .fault .halted ∧
    (∀ buf, handoff buf s = .fault .halted) ∧
    (∀ chunk, feed chunk s = .next ⟨s, [], chunk⟩)

/-- R144, R95, R127: a buffer DECODE rejects, handed to the idle executor of a block that is not halted
(R152): no frame and no SINK event, the flag and the DIAG event with the buffer's length, executor and
Reassembler idle. The other two cases are in `HaltedStopsEverything` and `OverlappingHandoffIsRefused`. -/
def Obligations.InconsistentBufferIsRejected : Prop :=
  ∀ (s : State) (buf : List Byte), halted s = false → s.fxPhase = .idle →
    buf.length < 2 ∨ buf.length ≠ frameLength (declaredCount buf) →
    handoff buf s = .next { s with
      stFlags := s.stFlags ||| 0b0010,
      trace := s.trace ++ [.diag .decodeInconsistent buf.length],
      fxPhase := .idle, rsPhase := .idle, rsExpected := none, rsCount := 0 }

/-- R98: inside the block DECODE never rejects: from a state with the invariant no step adds a
`DECODE_INCONSISTENT` event (a step that takes a reset starts a new trace). -/
def Obligations.DecodeFaultIsUnreachable : Prop :=
  ∀ s t : State, Inv s → step s = .next t →
    (∃ new, t.trace = s.trace ++ new ∧ ∀ n, Event.diag .decodeInconsistent n ∉ new) ∨
      s.resetIn = true

/-- 60_exceptions.md R148, R145, R146: a block comes to a halt only by one of the two fatal answers: the last
answer a step of it took from the sink, those before it `ok`, or the transport's signal, taken from the
head of IN by an idle executor. The flag tells which. A step of a halted block that answers a next state
is a reset. -/
def Obligations.HaltComesFromCollaborators : Prop :=
  (∀ s t : State, s.resetIn = false → step s = .next t → halted t = true →
    (flagIsSet .sinkFatal t.stFlags = true ∧
      ∃ k, s.sinkAnswers = List.replicate k .ok ++ .fatal :: t.sinkAnswers) ∨
    (flagIsSet .transportFatal t.stFlags = true ∧ s.fxPhase = .idle ∧ s.input = .fatal :: t.input ∧
      t.sinkAnswers = s.sinkAnswers)) ∧
  (∀ s t : State, halted s = true → step s = .next t → s.resetIn = true)

/-- An ill-formed instruction term, whose points are not as many as its `point_count`, stands for a
buffer DECODE rejects: the model's choice (log 16). -/
def Obligations.MiscountedTermIsRejected : Prop :=
  ∀ (i : Instr) (s : State), halted s = false → s.fxPhase = .idle →
    i.frame.points.length ≠ i.frame.pointCount →
    exec i s = .next { s with
      stFlags := s.stFlags ||| 0b0010,
      trace := s.trace ++ [.diag .decodeInconsistent (4 + 2 * i.frame.points.length)],
      fxPhase := .idle, rsPhase := .idle, rsExpected := none, rsCount := 0 }

/-- U1, R173, R127: a frame or a buffer handed off while another frame executes is refused by name
(log 14). -/
def Obligations.OverlappingHandoffIsRefused : Prop :=
  ∀ (i : Instr) (s : State), halted s = false → s.fxPhase ≠ .idle →
    exec i s = .refused .overlappingFeed ∧ ∀ buf, handoff buf s = .refused .overlappingFeed

/-- A row of the opcode table placed by `withFetchWord` is what the very next step runs, and it completes:
the step is `exec` of the row's instruction, in the state with the whole frame in the buffer, the
Reassembler idle and one `ok` ready for each event (the model's choice, log 4). -/
def Obligations.PlacedFrameRunsNext : Prop :=
  ∀ (s : State) (nbits w : Nat) (i : Instr), halted s = false →
    decodeTableWord nbits w = some i → i.frame.pointCount ≤ s.params.maxPoints.toNat →
    let handedOff := { s with
      rsPhase := .idle, rsExpected := none, rsCount := 0,
      rsBuf := s.rsBuf.writeFrom 0 (tableBytes nbits w), fxPhase := .idle, resetIn := false,
      sinkAnswers :=
        List.replicate (eventCount s.params.origin.axes i.frame) .ok ++ s.sinkAnswers }
    step (s.withFetchWord nbits w) = exec i handedOff ∧
    ∃ t, exec i handedOff = .next t ∧ t.fxPhase = .idle ∧ t.input = s.input ∧
      t.sinkAnswers = s.sinkAnswers ∧
      t.trace = s.trace ++ (execEvents s.params.origin.axes i.frame).map .sink

/-- R134, R155: a well-formed frame of any kind handed to the idle executor answers a next state, whatever
the sink has answered so far; where no answer was `fatal` it ends idle or waits for an answer. -/
def Obligations.EveryFrameRunsOrWaits : Prop :=
  ∀ (i : Instr) (s : State), i.wf = true → halted s = false → s.fxPhase = .idle →
    ∃ t, exec i s = .next t ∧
      (SinkAnswer.fatal ∉ s.sinkAnswers →
        halted t = false ∧ (t.fxPhase = .idle ∨ t.sinkAnswers = []))

/-- R155, R182: while the sink has not answered the event that is due, the block waits. That the wait is a
step is the model's (log 17), and so is that nothing changes: the event joins the trace only with its
answer (log 5), where the call may already have been made. -/
def Obligations.ExecutorWaitsForTheSink : Prop :=
  ∀ s : State, Inv s → executing s → eventDue s → s.sinkAnswers = [] → step s = .next s

/-- R77, R131: FEED of a chunk while a frame executes takes no byte before the frame is done. It comes to
the same as FEED after the next executor step; where the sink has not answered the event that is due it
consumes nothing, changes nothing and hands nothing off, and the chunk is given back. That second clause is
the model's: giving the chunk back is log 21, and that the trace does not change, the event joining it only
with its answer, is log 5. -/
def Obligations.FeedFinishesTheFrameFirst : Prop :=
  ∀ (s : State) (b : Byte) (bs : List Byte), executing s →
    (∀ t, step s = .next t → feed (b :: bs) s = feed (b :: bs) t) ∧
    (Inv s → eventDue s → s.sinkAnswers = [] → feed (b :: bs) s = .next ⟨s, [], b :: bs⟩)

/-- R35, R22: the unspecified reset contents of the buffer and the stale bytes of earlier frames are never
observed. With any other buffer that holds the same bytes of the frame in progress, a step comes to the
same but for the buffer, which again holds the same bytes of the frame in progress. While a frame executes the
buffer may differ even in that frame's own bytes: that no executor step reads them is the model's, which
executes the owned copy R12 permits (log 9). -/
def Obligations.StaleBytesAreNeverObserved : Prop :=
  ∀ (s t : State) (m : Memory), sameFrameBytes s m → step s = .next t →
    ∃ m', step { s with rsBuf := m } = .next { t with rsBuf := m' } ∧ sameFrameBytes t m'
end

