-- ==== Sys2Proof/Laws/Decode.lean ====
section
/-! SUPPORT. The Frame Decoder and the encoder: lengths, ranges, and what a decoded buffer was. -/

namespace Sys2Proof

@[simp] theorem Frame.frame_instr (f : Frame) : f.instr.frame = f := by
  obtain ⟨n, c, r, ps⟩ := f
  cases c <;> cases r <;> rfl

@[simp] theorem Instr.instr_frame (i : Instr) : i.frame.instr = i := by
  cases i <;> rfl

/-- `sext_8` answers an `i8`. -/
theorem fitsI8_sext8 (b : Byte) : fitsI8 (sext8 b) = true := by
  have := b.isLt
  unfold fitsI8 sext8
  split <;> (rw [Bool.and_eq_true, decide_eq_true_eq, decide_eq_true_eq]; omega)

/-- `sext_8` of the encoded byte of an `i8` is that `i8` (41_decoder.md R96). -/
theorem sext8_encodeI8 {z : Int} (h : fitsI8 z = true) : sext8 (encodeI8 z) = z := by
  simp only [fitsI8, Bool.and_eq_true, decide_eq_true_eq] at h
  simp only [sext8, encodeI8, BitVec.toNat_ofInt]
  split <;> omega

/-- The encoded byte of a decoded byte is that byte. -/
theorem encodeI8_sext8 (b : Byte) : encodeI8 (sext8 b) = b := by
  have := b.isLt
  apply BitVec.eq_of_toNat_eq
  simp only [sext8, encodeI8, BitVec.toNat_ofInt]
  split <;> omega

@[simp] theorem flagByte_encodeFlag (f : Bool) : flagByte (encodeFlag f) = f := by
  cases f <;> decide

/-- Only the value 1 sets a flag (30_encoding.md R54). -/
theorem flagByte_eq_true (b : Byte) : flagByte b = true ↔ b = 1 := by
  simp [flagByte]

/-- Each of the other 255 values clears it (30_encoding.md R54, R58). -/
theorem flagByte_eq_false (b : Byte) : flagByte b = false ↔ b ≠ 1 := by
  simp [flagByte]

@[simp] theorem length_encodePoints (ps : List Point) :
    (encodePoints ps).length = 2 * ps.length := by
  induction ps with
  | nil => rfl
  | cons p ps ih => simp [encodePoints, ih]; omega

/-- The length of an encoded frame (30_encoding.md R51). -/
@[simp] theorem length_encodeFrame (f : Frame) :
    (encodeFrame f).length = frameLength f.points.length := by
  simp [encodeFrame, frameLength]; omega

/-- A payload of an even length decodes to half as many pairs. -/
theorem length_decodePoints (n : Nat) (payload : List Byte) (h : payload.length = 2 * n) :
    (decodePoints payload).length = n := by
  induction n generalizing payload with
  | zero => simp at h; simp [h, decodePoints]
  | succ n ih =>
    obtain ⟨bx, by', rest, rfl⟩ : ∃ bx by' rest, payload = bx :: by' :: rest := by
      rcases payload with _ | ⟨bx, _ | ⟨by', rest⟩⟩
      · simp at h
      · simp at h; omega
      · exact ⟨bx, by', rest, rfl⟩
    simp [decodePoints, ih rest (by simp at h; omega)]

/-- Every decoded pair is an `i8` pair. -/
theorem wf_decodePoints (payload : List Byte) : (decodePoints payload).all Point.wf = true := by
  induction payload using decodePoints.induct with
  | case1 bx by' rest ih =>
    rw [decodePoints, List.all_cons, ih]
    simp [Point.wf, fitsI8_sext8]
  | case2 l h => unfold decodePoints; split <;> simp_all

/-- Pair `k` is read from payload bytes `2k` and `2k + 1` (41_decoder.md R94). -/
theorem getElem?_decodePoints (payload : List Byte) (k : Nat) (bx by' : Byte)
    (hx : payload[2 * k]? = some bx) (hy : payload[2 * k + 1]? = some by') :
    (decodePoints payload)[k]? = some ⟨sext8 bx, sext8 by'⟩ := by
  induction k generalizing payload with
  | zero =>
    rcases payload with _ | ⟨cx, _ | ⟨cy, rest⟩⟩
    · simp at hx
    · simp at hy
    · simp at hx hy; simp [decodePoints, hx, hy]
  | succ k ih =>
    rcases payload with _ | ⟨cx, _ | ⟨cy, rest⟩⟩
    · simp at hx
    · simp [Nat.mul_add] at hx
    · have : 2 * (k + 1) = 2 * k + 1 + 1 := by omega
      rw [this] at hx hy
      simpa [decodePoints] using ih rest (by simpa using hx) (by simpa using hy)

theorem decodePoints_encodePoints (ps : List Point) (h : ps.all Point.wf = true) :
    decodePoints (encodePoints ps) = ps := by
  induction ps with
  | nil => rfl
  | cons p ps ih =>
    simp only [List.all_cons, Bool.and_eq_true, Point.wf] at h
    simp [encodePoints, decodePoints, sext8_encodeI8 h.1.1, sext8_encodeI8 h.1.2, ih h.2]

theorem encodePoints_decodePoints (n : Nat) (payload : List Byte) (h : payload.length = 2 * n) :
    encodePoints (decodePoints payload) = payload := by
  induction n generalizing payload with
  | zero => simp at h; simp [h, decodePoints, encodePoints]
  | succ n ih =>
    rcases payload with _ | ⟨bx, _ | ⟨by', rest⟩⟩
    · simp at h
    · simp at h; omega
    · simp [decodePoints, encodePoints, encodeI8_sext8, ih rest (by simp at h; omega)]

theorem le16_lt (b0 b1 : Byte) : le16 b0 b1 ≤ 65535 := by
  have := b0.isLt; have := b1.isLt; unfold le16; omega

/-- The two bytes of a `u16` put together again (30_encoding.md R53). -/
theorem le16_encode {n : Nat} (h : n ≤ 65535) :
    le16 (BitVec.ofNat 8 (n % 256)) (BitVec.ofNat 8 (n / 256)) = n := by
  simp only [le16, BitVec.toNat_ofNat]; omega

/-- Everything a buffer that decodes can be (41_decoder.md R90 to R94). -/
theorem decode_frame {buf : List Byte} {i : Instr} (h : decode buf = .frame i) :
    ∃ b0 b1 b2 b3 payload, buf = b0 :: b1 :: b2 :: b3 :: payload ∧
      payload.length = 2 * le16 b0 b1 ∧
      i.frame = ⟨le16 b0 b1, flagByte b2, flagByte b3, decodePoints payload⟩ := by
  unfold decode at h
  split at h
  · rename_i b0 b1 rest
    split at h
    · rename_i hlen
      split at h
      · rename_i b2 b3 payload
        cases h
        refine ⟨b0, b1, b2, b3, payload, rfl, ?_, by simp⟩
        simp [frameLength] at hlen; omega
      · cases h
    · cases h
  · cases h

/-- A buffer of the declared length decodes (41_decoder.md R90). -/
theorem decode_of_length (b0 b1 b2 b3 : Byte) (payload : List Byte)
    (h : payload.length = 2 * le16 b0 b1) :
    decode (b0 :: b1 :: b2 :: b3 :: payload) =
      .frame (Frame.instr ⟨le16 b0 b1, flagByte b2, flagByte b3, decodePoints payload⟩) := by
  have : (b0 :: b1 :: b2 :: b3 :: payload).length = frameLength (le16 b0 b1) := by
    simp [frameLength, h]; omega
  simp only [decode, if_pos this]

/-- A decoded frame is well formed (41_decoder.md section 1). -/
theorem wf_of_decode {buf : List Byte} {i : Instr} (h : decode buf = .frame i) : i.wf = true := by
  obtain ⟨b0, b1, b2, b3, payload, -, hlen, hf⟩ := decode_frame h
  simp only [Instr.wf, Frame.wf, hf, wf_decodePoints, length_decodePoints _ _ hlen, Bool.and_true,
    decide_true, decide_eq_true_eq]
  exact le16_lt b0 b1

/-- A decoded buffer has its declared length, and the instruction its declared count. -/
theorem declared_of_decode {buf : List Byte} {i : Instr} (h : decode buf = .frame i) :
    i.frame.pointCount = declaredCount buf ∧ buf.length = frameLength (declaredCount buf) := by
  obtain ⟨b0, b1, b2, b3, payload, rfl, hlen, hf⟩ := decode_frame h
  simp [hf, declaredCount, frameLength, hlen]; omega

/-- A buffer of its declared length decodes. -/
theorem decode_of_declared {buf : List Byte} (h2 : 2 ≤ buf.length)
    (h : buf.length = frameLength (declaredCount buf)) : ∃ i, decode buf = .frame i := by
  rcases buf with _ | ⟨b0, _ | ⟨b1, _ | ⟨b2, _ | ⟨b3, payload⟩⟩⟩⟩
  · simp at h2
  · simp at h2
  · simp [frameLength] at h; omega
  · simp [frameLength] at h; omega
  · refine ⟨_, decode_of_length b0 b1 b2 b3 payload ?_⟩
    simp [frameLength, declaredCount] at h; omega

/-- The parts of well-formedness. -/
theorem Frame.wf_iff (f : Frame) :
    f.wf = true ↔ f.pointCount ≤ 65535 ∧ f.points.length = f.pointCount ∧
      f.points.all Point.wf = true := by
  simp [Frame.wf, and_assoc]

/-- The frame-length invariant (30_encoding.md R51). -/
theorem length_encode {i : Instr} (h : i.wf = true) :
    (encode i).length = frameLength i.frame.pointCount := by
  obtain ⟨-, hlen, -⟩ := (Frame.wf_iff _).1 h
  simp [encode, hlen]

/-! ### The split of a stream -/

@[simp] theorem length_lowBytes (k w : Nat) : (lowBytes k w).length = k := by
  induction k generalizing w with
  | zero => rfl
  | succ k ih => simp [lowBytes, ih]

theorem frameLength_pos (n : Nat) : 4 ≤ frameLength n := by unfold frameLength; omega

/-- More fuel than bytes changes nothing. -/
theorem parseUpTo_fuel (n m : Nat) (s : List Byte) (hn : s.length ≤ n) (hm : s.length ≤ m) :
    parseUpTo n s = parseUpTo m s := by
  induction n generalizing m s with
  | zero =>
    obtain rfl := List.length_eq_zero_iff.1 (show s.length = 0 by omega)
    cases m <;> rfl
  | succ n ih =>
    cases m with
    | zero =>
      obtain rfl := List.length_eq_zero_iff.1 (show s.length = 0 by omega)
      rfl
    | succ m =>
      rcases s with _ | ⟨b0, _ | ⟨b1, rest⟩⟩
      · rfl
      · rfl
      · simp only [parseUpTo]
        split
        · rfl
        · have hpos := frameLength_pos (le16 b0 b1)
          rw [ih m _ (by simp at hn ⊢; omega) (by simp at hm ⊢; omega)]

/-- The parse of a stream whose first unit has not arrived whole. -/
theorem parse_short {s : List Byte} (h : s.length < 2 ∨ s.length < frameLength (declaredCount s)) :
    parse s = ([], s) := by
  rcases s with _ | ⟨b0, _ | ⟨b1, rest⟩⟩
  · rfl
  · rfl
  · have : (b0 :: b1 :: rest).length < frameLength (le16 b0 b1) := by
      rcases h with h | h
      · simp at h
      · exact h
    simp [parse, parseUpTo] at this ⊢
    simp [this]

/-- The parse of a stream whose first unit has arrived: the unit, then the parse of what follows
(40_reassembler.md R81). -/
theorem parse_unit {s : List Byte} (h2 : 2 ≤ s.length)
    (h : frameLength (declaredCount s) ≤ s.length) :
    parse s = (s.take (frameLength (declaredCount s)) ::
      (parse (s.drop (frameLength (declaredCount s)))).1,
      (parse (s.drop (frameLength (declaredCount s)))).2) := by
  rcases s with _ | ⟨b0, _ | ⟨b1, rest⟩⟩
  · simp at h2
  · simp at h2
  · have hpos := frameLength_pos (le16 b0 b1)
    simp only [declaredCount] at h ⊢
    rw [parse, List.length_cons, parseUpTo]
    simp only [if_neg (Nat.not_lt.2 h)]
    rw [parseUpTo_fuel (b1 :: rest).length
      (List.drop (frameLength (le16 b0 b1)) (b0 :: b1 :: rest)).length _
      (by simp; omega) le_rfl]
    rfl

end Sys2Proof
end

