-- ==== Sys2Proof/Laws/Quantizer.lean ====
section
/-! SUPPORT. The clamp, the decrease of the remaining displacement, and the unfolding of DECOMP. -/

namespace Sys2Proof.Machine

theorem clamp127_range (r : Int) : -127 ≤ clamp127 r ∧ clamp127 r ≤ 127 := by
  unfold clamp127; split
  · omega
  · split <;> omega

@[simp] theorem clamp127_eq_zero (r : Int) : clamp127 r = 0 ↔ r = 0 := by
  unfold clamp127; split
  · omega
  · split <;> omega

@[simp] theorem clamp127_zero : clamp127 0 = 0 := rfl

/-- One axis falls by `min(|r|, 127)` (42_quantizer.md R108). -/
theorem natAbs_sub_clamp127 (r : Int) :
    (r - clamp127 r).natAbs = r.natAbs - min r.natAbs 127 := by
  unfold clamp127; split
  · omega
  · split <;> omega

/-- One axis stays between 0 and its target (42_quantizer.md R108). -/
theorem between_sub_clamp127 {r t : Int} (h : between r t) : between (r - clamp127 r) t := by
  unfold between clamp127 at *; split
  · omega
  · split <;> omega

theorem within127_clampAxes (r : Axes) : within127 (clampAxes r) :=
  ⟨clamp127_range _, clamp127_range _, clamp127_range _, clamp127_range _⟩

theorem Axes.eq_zero_iff (r : Axes) : r = Axes.zero ↔ r.x = 0 ∧ r.y = 0 ∧ r.v = 0 ∧ r.h = 0 := by
  cases r; simp [Axes.zero]

theorem magnitude_eq_zero (r : Axes) : magnitude r = 0 ↔ r = Axes.zero := by
  rw [Axes.eq_zero_iff]; unfold magnitude; omega

/-- Each step from a displacement that is not zero lowers the magnitude. -/
theorem magnitude_remainAfter_lt {r : Axes} (h : r ≠ Axes.zero) :
    magnitude (remainAfter r) < magnitude r := by
  rw [Ne, Axes.eq_zero_iff] at h
  simp only [magnitude, remainAfter, Axes.sub, clampAxes, natAbs_sub_clamp127]
  omega

/-- Fuel beyond the magnitude changes nothing. -/
theorem decompUpTo_fuel (n m : Nat) (r : Axes) (hn : magnitude r ≤ n) (hm : magnitude r ≤ m) :
    decompUpTo n r = decompUpTo m r := by
  induction n generalizing m r with
  | zero =>
    obtain rfl := (magnitude_eq_zero r).1 (by omega)
    cases m <;> simp [decompUpTo]
  | succ n ih =>
    by_cases h : r = Axes.zero
    · subst h; cases m <;> simp [decompUpTo]
    · have hlt := magnitude_remainAfter_lt h
      cases m with
      | zero => omega
      | succ m => simp [decompUpTo, h, ih m (remainAfter r) (by omega) (by omega)]

@[simp] theorem decomp_zero : decomp Axes.zero = [] := rfl

/-- DECOMP unfolded once (42_quantizer.md R102, R103). -/
theorem decomp_step {r : Axes} (h : r ≠ Axes.zero) :
    decomp r = clampAxes r :: decomp (remainAfter r) := by
  have hlt := magnitude_remainAfter_lt h
  obtain ⟨n, hn⟩ : ∃ n, magnitude r = n + 1 := ⟨magnitude r - 1, by omega⟩
  simp only [decomp, hn, decompUpTo, if_neg h]
  rw [decompUpTo_fuel n (magnitude (remainAfter r)) _ (by omega) le_rfl]

/-- Induction along a decomposition: the zero displacement, and one step from any other. -/
theorem decomp_induction {P : Axes → Prop} (zero : P Axes.zero)
    (step : ∀ r, r ≠ Axes.zero → P (remainAfter r) → P r) (t : Axes) : P t := by
  induction hn : magnitude t using Nat.strong_induction_on generalizing t with
  | _ n ih =>
    by_cases h : t = Axes.zero
    · exact h ▸ zero
    · exact step t h (ih _ (hn ▸ magnitude_remainAfter_lt h) _ rfl)

/-- A decomposition has at most as many moves as the magnitude of its target. -/
theorem length_decomp_le (t : Axes) : (decomp t).length ≤ magnitude t := by
  induction t using decomp_induction with
  | zero => simp
  | step r hr ih =>
    have := magnitude_remainAfter_lt hr
    rw [decomp_step hr, List.length_cons]
    omega

end Sys2Proof.Machine
end

