-- ==== Sys2Proof/Machine/Environment.lean ====
section
/-! DEFINITION. What the outside world can do to the machine between two operations (60_exceptions.md R155,
R156; 70_reset_and_hazards.md R170). None of these is an operation of the block. -/

namespace Sys2Proof.Machine

/-- The Transport Source delivers a chunk: its bytes join the queue at IN in order, and the chunk's
boundary is not recorded (20_memory.md R30, 40_reassembler.md R77). -/
def offerChunk (chunk : List Byte) (s : State) : State :=
  { s with input := s.input ++ chunk.map .byte }

/-- The Transport Source signals a fatal failure after what it has already delivered
(60_exceptions.md R146; log 15). -/
def signalTransportFatal (s : State) : State := { s with input := s.input ++ [.fatal] }

/-- The Report Sink answers the SINK events to come (60_exceptions.md R155). -/
def answerSink (answers : List SinkAnswer) (s : State) : State :=
  { s with sinkAnswers := s.sinkAnswers ++ answers }

/-- The environment asserts reset (70_reset_and_hazards.md R170). -/
def assertReset (s : State) : State := { s with resetIn := true }

/-- What chance leaves in `rs_buf` at the next reset: any bytes (10_state.md R22,
93_implementation_defined.md U8; log 3). -/
def leaveAtReset (contents : Memory) (s : State) : State := { s with bufAfterReset := contents }

end Sys2Proof.Machine
end

