-- ==== Sys2Proof/Laws/State.lean ====
section
/-! SUPPORT. One lemma per field per named update of the state, so that no later proof unfolds one. -/

namespace Sys2Proof.Machine

/-! ### raiseFault -/

@[simp] theorem raiseFault_params (c : Cause) (n : Nat) (s : State) :
    (raiseFault c n s).params = s.params := by cases c <;> rfl

@[simp] theorem raiseFault_rsPhase (c : Cause) (n : Nat) (s : State) :
    (raiseFault c n s).rsPhase = if c = .decodeInconsistent then .idle else s.rsPhase := by
  cases c <;> rfl

@[simp] theorem raiseFault_rsExpected (c : Cause) (n : Nat) (s : State) :
    (raiseFault c n s).rsExpected = if c = .decodeInconsistent then none else s.rsExpected := by
  cases c <;> rfl

@[simp] theorem raiseFault_rsCount (c : Cause) (n : Nat) (s : State) :
    (raiseFault c n s).rsCount = if c = .decodeInconsistent then 0 else s.rsCount := by
  cases c <;> rfl

@[simp] theorem raiseFault_rsBuf (c : Cause) (n : Nat) (s : State) :
    (raiseFault c n s).rsBuf = s.rsBuf := by cases c <;> rfl

@[simp] theorem raiseFault_fxPhase (c : Cause) (n : Nat) (s : State) :
    (raiseFault c n s).fxPhase = if c = .decodeInconsistent then .idle else s.fxPhase := by
  cases c <;> rfl

@[simp] theorem raiseFault_fxPointCount (c : Cause) (n : Nat) (s : State) :
    (raiseFault c n s).fxPointCount = s.fxPointCount := by cases c <;> rfl

@[simp] theorem raiseFault_fxClick (c : Cause) (n : Nat) (s : State) :
    (raiseFault c n s).fxClick = s.fxClick := by cases c <;> rfl

@[simp] theorem raiseFault_fxReset (c : Cause) (n : Nat) (s : State) :
    (raiseFault c n s).fxReset = s.fxReset := by cases c <;> rfl

@[simp] theorem raiseFault_fxIdx (c : Cause) (n : Nat) (s : State) :
    (raiseFault c n s).fxIdx = s.fxIdx := by cases c <;> rfl

@[simp] theorem raiseFault_fxPoints (c : Cause) (n : Nat) (s : State) :
    (raiseFault c n s).fxPoints = s.fxPoints := by cases c <;> rfl

@[simp] theorem raiseFault_rem (c : Cause) (n : Nat) (s : State) :
    (raiseFault c n s).rem = s.rem := by cases c <;> rfl

@[simp] theorem raiseFault_stFlags (c : Cause) (n : Nat) (s : State) :
    (raiseFault c n s).stFlags = setFlag c s.stFlags := by cases c <;> rfl

@[simp] theorem raiseFault_trace (c : Cause) (n : Nat) (s : State) :
    (raiseFault c n s).trace = s.trace ++ [.diag c n] := by cases c <;> rfl

@[simp] theorem raiseFault_input (c : Cause) (n : Nat) (s : State) :
    (raiseFault c n s).input = s.input := by cases c <;> rfl

@[simp] theorem raiseFault_sinkAnswers (c : Cause) (n : Nat) (s : State) :
    (raiseFault c n s).sinkAnswers = s.sinkAnswers := by cases c <;> rfl

@[simp] theorem raiseFault_resetIn (c : Cause) (n : Nat) (s : State) :
    (raiseFault c n s).resetIn = s.resetIn := by cases c <;> rfl

@[simp] theorem raiseFault_bufAfterReset (c : Cause) (n : Nat) (s : State) :
    (raiseFault c n s).bufAfterReset = s.bufAfterReset := by cases c <;> rfl

/-! ### startFrame -/

@[simp] theorem startFrame_params (f : Frame) (s : State) :
    (startFrame f s).params = s.params := rfl

@[simp] theorem startFrame_rsPhase (f : Frame) (s : State) :
    (startFrame f s).rsPhase = s.rsPhase := rfl

@[simp] theorem startFrame_rsExpected (f : Frame) (s : State) :
    (startFrame f s).rsExpected = s.rsExpected := rfl

@[simp] theorem startFrame_rsCount (f : Frame) (s : State) :
    (startFrame f s).rsCount = s.rsCount := rfl

@[simp] theorem startFrame_rsBuf (f : Frame) (s : State) :
    (startFrame f s).rsBuf = s.rsBuf := rfl

@[simp] theorem startFrame_fxPhase (f : Frame) (s : State) :
    (startFrame f s).fxPhase = if f.reset then .decomp else .replay := rfl

@[simp] theorem startFrame_fxPointCount (f : Frame) (s : State) :
    (startFrame f s).fxPointCount = f.pointCount := rfl

@[simp] theorem startFrame_fxClick (f : Frame) (s : State) :
    (startFrame f s).fxClick = f.click := rfl

@[simp] theorem startFrame_fxReset (f : Frame) (s : State) :
    (startFrame f s).fxReset = f.reset := rfl

@[simp] theorem startFrame_fxIdx (f : Frame) (s : State) :
    (startFrame f s).fxIdx = 0 := rfl

@[simp] theorem startFrame_fxPoints (f : Frame) (s : State) :
    (startFrame f s).fxPoints = f.points := rfl

@[simp] theorem startFrame_rem (f : Frame) (s : State) :
    (startFrame f s).rem = if f.reset then s.params.origin.axes else s.rem := rfl

@[simp] theorem startFrame_stFlags (f : Frame) (s : State) :
    (startFrame f s).stFlags = s.stFlags := rfl

@[simp] theorem startFrame_trace (f : Frame) (s : State) :
    (startFrame f s).trace = s.trace := rfl

@[simp] theorem startFrame_input (f : Frame) (s : State) :
    (startFrame f s).input = s.input := rfl

@[simp] theorem startFrame_sinkAnswers (f : Frame) (s : State) :
    (startFrame f s).sinkAnswers = s.sinkAnswers := rfl

@[simp] theorem startFrame_resetIn (f : Frame) (s : State) :
    (startFrame f s).resetIn = s.resetIn := rfl

@[simp] theorem startFrame_bufAfterReset (f : Frame) (s : State) :
    (startFrame f s).bufAfterReset = s.bufAfterReset := rfl

/-! ### afterReset -/

@[simp] theorem afterReset_params (s : State) : (afterReset s).params = s.params := rfl

@[simp] theorem afterReset_rsPhase (s : State) : (afterReset s).rsPhase = .idle := rfl

@[simp] theorem afterReset_rsExpected (s : State) : (afterReset s).rsExpected = none := rfl

@[simp] theorem afterReset_rsCount (s : State) : (afterReset s).rsCount = 0 := rfl

@[simp] theorem afterReset_rsBuf (s : State) : (afterReset s).rsBuf = s.bufAfterReset := rfl

@[simp] theorem afterReset_fxPhase (s : State) : (afterReset s).fxPhase = .idle := rfl

@[simp] theorem afterReset_stFlags (s : State) : (afterReset s).stFlags = 0 := rfl

@[simp] theorem afterReset_trace (s : State) : (afterReset s).trace = [] := rfl

@[simp] theorem afterReset_input (s : State) : (afterReset s).input = s.input := rfl

@[simp] theorem afterReset_sinkAnswers (s : State) : (afterReset s).sinkAnswers = s.sinkAnswers := rfl

@[simp] theorem afterReset_resetIn (s : State) : (afterReset s).resetIn = false := rfl

@[simp] theorem afterReset_bufAfterReset (s : State) :
    (afterReset s).bufAfterReset = s.bufAfterReset := rfl

/-! ### The environment's actions -/

@[simp] theorem offerChunk_input (c : List Byte) (s : State) :
    (offerChunk c s).input = s.input ++ c.map .byte := rfl

@[simp] theorem signalTransportFatal_input (s : State) :
    (signalTransportFatal s).input = s.input ++ [.fatal] := rfl

@[simp] theorem answerSink_sinkAnswers (a : List SinkAnswer) (s : State) :
    (answerSink a s).sinkAnswers = s.sinkAnswers ++ a := rfl

@[simp] theorem assertReset_resetIn (s : State) : (assertReset s).resetIn = true := rfl

@[simp] theorem leaveAtReset_bufAfterReset (m : Memory) (s : State) :
    (leaveAtReset m s).bufAfterReset = m := rfl

/-! ### The flags -/

/-- `halted` reads `st_flags` only. -/
theorem halted_congr {s t : State} (h : t.stFlags = s.stFlags) : halted t = halted s := by
  simp [halted, h]

/-- Setting a cause's flag sets it and leaves every other as it was. -/
theorem flagIsSet_setFlag (c d : Cause) (f : BitVec 4) :
    flagIsSet d (setFlag c f) = (flagIsSet d f || decide (d = c)) := by
  cases c <;> cases d <;> revert f <;> decide

@[simp] theorem halted_raiseFault (c : Cause) (n : Nat) (s : State) :
    halted (raiseFault c n s) =
      (halted s || decide (c = .sinkFatal) || decide (c = .transportFatal)) := by
  simp only [halted, raiseFault_stFlags, flagIsSet_setFlag]
  cases c <;> cases flagIsSet .sinkFatal s.stFlags <;> cases flagIsSet .transportFatal s.stFlags <;>
    rfl

@[simp] theorem halted_afterReset (s : State) : halted (afterReset s) = false := by
  simp [halted, flagIsSet]

@[simp] theorem halted_resetWith (p : Params) (m : Memory) :
    halted (State.resetWith p m) = false := by
  simp [halted, flagIsSet, State.resetWith]

@[simp] theorem halted_startFrame (f : Frame) (s : State) :
    halted (startFrame f s) = halted s := rfl

end Sys2Proof.Machine
end

