-- ==== Sys2Proof/Laws/Executor.lean ====
section
/-! SUPPORT. What one executor step can do, said once, and the run of a frame: what is left to emit, how many
steps are left, and the state a frame ends in. -/

namespace Sys2Proof.Machine

/-! ### One SINK event -/

theorem emitSink_nil {e : SinkEvent} {s : State} (h : s.sinkAnswers = []) :
    emitSink e s = .waits := by
  simp [emitSink, h]

theorem emitSink_ok {e : SinkEvent} {s : State} {later : List SinkAnswer}
    (h : s.sinkAnswers = .ok :: later) :
    emitSink e s = .took { s with trace := s.trace ++ [.sink e], sinkAnswers := later } := by
  simp [emitSink, h]

theorem emitSink_fatal {e : SinkEvent} {s : State} {later : List SinkAnswer}
    (h : s.sinkAnswers = .fatal :: later) :
    emitSink e s = .took (raiseFault .sinkFatal 0
      { s with trace := s.trace ++ [.sink e], sinkAnswers := later }) := by
  simp [emitSink, h]

/-- Everything a SINK event that took place can have done. -/
theorem emitSink_took {e : SinkEvent} {s t : State} (h : emitSink e s = .took t) :
    ∃ later, (s.sinkAnswers = .ok :: later ∧
        t = { s with trace := s.trace ++ [.sink e], sinkAnswers := later }) ∨
      (s.sinkAnswers = .fatal :: later ∧
        t = raiseFault .sinkFatal 0
          { s with trace := s.trace ++ [.sink e], sinkAnswers := later }) := by
  rcases hs : s.sinkAnswers with _ | ⟨a, later⟩
  · simp [emitSink_nil hs] at h
  · refine ⟨later, ?_⟩
    cases a
    · left; simpa [emitSink_ok hs, eq_comm] using h
    · right; simpa [emitSink_fatal hs, eq_comm] using h

theorem emitSink_ne_stops (e : SinkEvent) (s : State) (r : Fault) : emitSink e s ≠ .stops r := by
  rcases hs : s.sinkAnswers with _ | ⟨a, later⟩
  · simp [emitSink_nil hs]
  · cases a
    · simp [emitSink_ok hs]
    · simp [emitSink_fatal hs]

/-! ### One executor step -/

/-- The executor's silent steps: a stage ends (43_frame_execution.md R129, R130). -/
inductive SilentStep (s : State) : State → Prop where
  | decompEnds : s.fxPhase = .decomp → s.rem = Axes.zero →
      SilentStep s { s with fxPhase := .replay }
  | replayEnds : s.fxPhase = .replay → s.fxIdx = s.fxPointCount →
      SilentStep s { s with fxPhase := if s.fxClick then .press else .idle }

/-- The SINK event that is due, and the step's own updates (43_frame_execution.md R129 to R133). -/
inductive DueEvent (s : State) : SinkEvent → State → Prop where
  | decomp : s.fxPhase = .decomp → s.rem ≠ Axes.zero →
      DueEvent s (.move (clampAxes s.rem)) { s with rem := remainAfter s.rem }
  | replay (p : Point) : s.fxPhase = .replay → s.fxIdx ≠ s.fxPointCount →
      s.fxPoints[s.fxIdx]? = some p →
      DueEvent s (.move ⟨p.dx, p.dy, 0, 0⟩) { s with fxIdx := s.fxIdx + 1 }
  | press : s.fxPhase = .press → DueEvent s (.button true) { s with fxPhase := .release }
  | release : s.fxPhase = .release → DueEvent s (.button false) { s with fxPhase := .idle }

theorem fxStep_silent {s t : State} (hh : halted s = false) (h : SilentStep s t) :
    fxStep s = .took t := by
  cases h with
  | decompEnds hp hr => simp [fxStep, hh, hp, stepDecomp, hr]
  | replayEnds hp hi => simp [fxStep, hh, hp, stepReplay, hi]

theorem fxStep_due {s u : State} {e : SinkEvent} (hh : halted s = false) (h : DueEvent s e u) :
    fxStep s = emitSink e u := by
  cases h with
  | decomp hp hr => simp [fxStep, hh, hp, stepDecomp, hr]
  | replay p hp hi hpt => simp [fxStep, hh, hp, stepReplay, hi, hpt]
  | press hp => simp [fxStep, hh, hp, stepPress]
  | release hp => simp [fxStep, hh, hp, stepRelease]

theorem fxStep_halted {s : State} (h : halted s = true) : fxStep s = .waits := by
  simp [fxStep, h]

theorem fxStep_idle {s : State} (h : s.fxPhase = .idle) : fxStep s = .waits := by
  simp [fxStep, h]

/-- Everything the executor can be at: halted or idle, a silent step, an event that is due, or (in no
reachable state) a pair that is missing. -/
theorem fxStep_cases (s : State) :
    (halted s = true ∨ s.fxPhase = .idle) ∨
    (halted s = false ∧ ∃ t, SilentStep s t) ∨
    (halted s = false ∧ ∃ e u, DueEvent s e u) ∨
    (halted s = false ∧ s.fxPhase = .replay ∧ s.fxIdx ≠ s.fxPointCount ∧
      s.fxPoints[s.fxIdx]? = none ∧ fxStep s = .stops .pointMissing) := by
  cases hh : halted s
  swap
  · exact .inl (.inl rfl)
  cases hp : s.fxPhase
  · exact .inl (.inr rfl)
  · by_cases hr : s.rem = Axes.zero
    · exact .inr (.inl ⟨rfl, _, .decompEnds hp hr⟩)
    · exact .inr (.inr (.inl ⟨rfl, _, _, .decomp hp hr⟩))
  · by_cases hi : s.fxIdx = s.fxPointCount
    · exact .inr (.inl ⟨rfl, _, .replayEnds hp hi⟩)
    · cases hpt : s.fxPoints[s.fxIdx]? with
      | some p => exact .inr (.inr (.inl ⟨rfl, _, _, .replay p hp hi hpt⟩))
      | none =>
        refine .inr (.inr (.inr ⟨rfl, rfl, hi, rfl, ?_⟩))
        simp [fxStep, hh, hp, stepReplay, hi, hpt]
  · exact .inr (.inr (.inl ⟨rfl, _, _, .press hp⟩))
  · exact .inr (.inr (.inl ⟨rfl, _, _, .release hp⟩))

/-- Everything an executor step that was taken can have done. -/
theorem fxStep_took {s t : State} (h : fxStep s = .took t) :
    halted s = false ∧ (SilentStep s t ∨ ∃ e u, DueEvent s e u ∧ emitSink e u = .took t) := by
  rcases fxStep_cases s with (hh | hp) | ⟨hh, v, hv⟩ | ⟨hh, e, u, hu⟩ | ⟨-, -, -, -, hs⟩
  · simp [fxStep_halted hh] at h
  · simp [fxStep_idle hp] at h
  · rw [fxStep_silent hh hv] at h
    cases h; exact ⟨hh, .inl hv⟩
  · exact ⟨hh, .inr ⟨e, u, hu, by rwa [fxStep_due hh hu] at h⟩⟩
  · simp [hs] at h

/-- A due event's own updates touch the executor's progress only. -/
theorem DueEvent.frame {s u : State} {e : SinkEvent} (h : DueEvent s e u) :
    u.params = s.params ∧ u.rsPhase = s.rsPhase ∧ u.rsExpected = s.rsExpected ∧
    u.rsCount = s.rsCount ∧ u.rsBuf = s.rsBuf ∧ u.fxPointCount = s.fxPointCount ∧
    u.fxClick = s.fxClick ∧ u.fxReset = s.fxReset ∧ u.fxPoints = s.fxPoints ∧
    u.stFlags = s.stFlags ∧ u.trace = s.trace ∧ u.input = s.input ∧
    u.sinkAnswers = s.sinkAnswers ∧ u.resetIn = s.resetIn ∧
    u.bufAfterReset = s.bufAfterReset := by
  cases h <;> simp

/-- What no executor step changes. -/
structure FxFrame (s t : State) : Prop where
  params : t.params = s.params
  rsPhase : t.rsPhase = s.rsPhase
  rsExpected : t.rsExpected = s.rsExpected
  rsCount : t.rsCount = s.rsCount
  rsBuf : t.rsBuf = s.rsBuf
  fxPointCount : t.fxPointCount = s.fxPointCount
  fxClick : t.fxClick = s.fxClick
  fxReset : t.fxReset = s.fxReset
  fxPoints : t.fxPoints = s.fxPoints
  input : t.input = s.input
  resetIn : t.resetIn = s.resetIn
  bufAfterReset : t.bufAfterReset = s.bufAfterReset

theorem FxFrame.rfl' (s : State) : FxFrame s s := by constructor <;> rfl

theorem FxFrame.trans {s t u : State} (h : FxFrame s t) (k : FxFrame t u) : FxFrame s u := by
  constructor
  · exact k.params.trans h.params
  · exact k.rsPhase.trans h.rsPhase
  · exact k.rsExpected.trans h.rsExpected
  · exact k.rsCount.trans h.rsCount
  · exact k.rsBuf.trans h.rsBuf
  · exact k.fxPointCount.trans h.fxPointCount
  · exact k.fxClick.trans h.fxClick
  · exact k.fxReset.trans h.fxReset
  · exact k.fxPoints.trans h.fxPoints
  · exact k.input.trans h.input
  · exact k.resetIn.trans h.resetIn
  · exact k.bufAfterReset.trans h.bufAfterReset

/-- The frame of one executor step. -/
theorem fxStep_frame {s t : State} (h : fxStep s = .took t) : FxFrame s t := by
  obtain ⟨-, hs | ⟨e, u, hu, he⟩⟩ := fxStep_took h
  · cases hs <;> constructor <;> rfl
  · obtain ⟨h1, h2, h3, h4, h5, h6, h7, h8, h9, -, -, h10, -, h11, h12⟩ := hu.frame
    obtain ⟨later, ⟨-, rfl⟩ | ⟨-, rfl⟩⟩ := emitSink_took he <;>
      constructor <;> simp [*]

/-! ### A run of the executor -/

theorem runFx_of_waits {s : State} (h : fxStep s = .waits) (n : Nat) : runFx n s = .next s := by
  cases n <;> simp [runFx, h]

theorem runFx_succ_took {s t : State} (h : fxStep s = .took t) (n : Nat) :
    runFx (n + 1) s = runFx n t := by
  simp [runFx, h]

/-- What every executor step keeps, a run keeps. -/
theorem runFx_invariant {P : State → Prop} (hP : ∀ s t, P s → fxStep s = .took t → P t)
    {n : Nat} {s t : State} (hs : P s) (h : runFx n s = .next t) : P t := by
  induction n generalizing s with
  | zero => cases h; exact hs
  | succ n ih =>
    simp only [runFx] at h
    split at h
    · exact ih (hP _ _ hs ‹_›) h
    · cases h; exact hs
    · cases h

/-- The frame of a run. -/
theorem runFx_frame {n : Nat} {s t : State} (h : runFx n s = .next t) : FxFrame s t :=
  runFx_invariant (P := FxFrame s) (fun _ _ hu hv => hu.trans (fxStep_frame hv))
    (FxFrame.rfl' s) h

/-- A run stops by a fault only for a missing pair. -/
theorem runFx_outcome (n : Nat) (s : State) :
    (∃ t, runFx n s = .next t) ∨ runFx n s = .fault .pointMissing := by
  induction n generalizing s with
  | zero => exact .inl ⟨s, rfl⟩
  | succ n ih =>
    rcases fxStep_cases s with (hh | hp) | ⟨hh, v, hv⟩ | ⟨hh, e, u, hu⟩ | ⟨-, -, -, -, hs⟩
    · exact .inl ⟨s, runFx_of_waits (fxStep_halted hh) _⟩
    · exact .inl ⟨s, runFx_of_waits (fxStep_idle hp) _⟩
    · rw [runFx_succ_took (fxStep_silent hh hv)]; exact ih v
    · cases he : emitSink e u with
      | took t => rw [runFx_succ_took (by rw [fxStep_due hh hu, he])]; exact ih t
      | waits => exact .inl ⟨s, runFx_of_waits (by rw [fxStep_due hh hu, he]) _⟩
      | stops r => exact absurd he (emitSink_ne_stops e u r)
    · exact .inr (by simp [runFx, hs])

/-! ### What is left of a frame -/

/-- The registers hold a frame: as many pairs as counted, and `fx_idx` not beyond them. -/
def holdsFrame (s : State) : Prop :=
  s.fxPoints.length = s.fxPointCount ∧ s.fxIdx ≤ s.fxPointCount

/-- The SINK events of stage 3 (43_frame_execution.md R120). -/
def clickEvents (click : Bool) : List SinkEvent :=
  if click then [.button true, .button false] else []

/-- The SINK events still to come. -/
def pendingEvents (s : State) : List SinkEvent :=
  match s.fxPhase with
  | .idle => []
  | .decomp => (decomp s.rem).map .move ++
      (replay (s.fxPoints.drop s.fxIdx)).map .move ++ clickEvents s.fxClick
  | .replay => (replay (s.fxPoints.drop s.fxIdx)).map .move ++ clickEvents s.fxClick
  | .press => [.button true, .button false]
  | .release => [.button false]

/-- A bound of the steps still to come (43_frame_execution.md R134). -/
def stepsLeft (s : State) : Nat :=
  match s.fxPhase with
  | .idle => 0
  | .decomp => magnitude s.rem + (s.fxPoints.length - s.fxIdx) + 4
  | .replay => (s.fxPoints.length - s.fxIdx) + 3
  | .press => 2
  | .release => 1

/-- The silent steps still to come: the end of each stage that is not the last (43_frame_execution.md
R134). -/
def silentLeft (s : State) : Nat :=
  match s.fxPhase with
  | .decomp => 2
  | .replay => 1
  | _ => 0

theorem stepsLeft_le_fxFuel (s : State) : stepsLeft s ≤ fxFuel s := by
  unfold stepsLeft fxFuel; split <;> omega

/-- The state a frame ends in when the sink answers `ok` to all that is left and `later` remains. -/
def finished (s : State) (later : List SinkAnswer) : State :=
  { s with
    fxPhase := .idle
    fxIdx := if s.fxPhase = .decomp ∨ s.fxPhase = .replay then s.fxPointCount else s.fxIdx
    rem := if s.fxPhase = .decomp then Axes.zero else s.rem
    trace := s.trace ++ (pendingEvents s).map .sink
    sinkAnswers := later }

/-- A silent step leaves fewer steps. -/
theorem SilentStep.stepsLeft_lt {s t : State} (h : SilentStep s t) : stepsLeft t < stepsLeft s := by
  cases h with
  | decompEnds hp hr => simp only [stepsLeft, hp]; omega
  | replayEnds hp hi => cases hc : s.fxClick <;> simp [stepsLeft, hp]

/-- A due event's updates leave fewer steps. -/
theorem DueEvent.stepsLeft_lt {s u : State} {e : SinkEvent} (h : DueEvent s e u) :
    stepsLeft u < stepsLeft s := by
  cases h with
  | decomp hp hr =>
    have := magnitude_remainAfter_lt hr
    simp only [stepsLeft, hp]; omega
  | replay p hp hi hpt =>
    have := (List.getElem?_eq_some_iff.1 hpt).1
    simp only [stepsLeft, hp]; omega
  | press hp => simp [stepsLeft, hp]
  | release hp => simp [stepsLeft, hp]

/-- Every executor step that is taken leaves fewer steps (43_frame_execution.md R134). -/
theorem stepsLeft_lt_of_took {s t : State} (h : fxStep s = .took t) : stepsLeft t < stepsLeft s := by
  obtain ⟨-, hs | ⟨e, u, hu, he⟩⟩ := fxStep_took h
  · exact hs.stepsLeft_lt
  · obtain ⟨later, ⟨-, rfl⟩ | ⟨-, rfl⟩⟩ := emitSink_took he <;> exact hu.stepsLeft_lt

/-- Where no step is left the executor is idle. -/
theorem idle_of_stepsLeft {s : State} (h : stepsLeft s = 0) : s.fxPhase = .idle := by
  revert h; unfold stepsLeft; split <;> simp_all

theorem SilentStep.pending {s t : State} (h : SilentStep s t) (hf : holdsFrame s) :
    holdsFrame t ∧ pendingEvents t = pendingEvents s ∧ silentLeft t < silentLeft s ∧
    t.sinkAnswers = s.sinkAnswers ∧ t.trace = s.trace ∧ t.stFlags = s.stFlags ∧
    ∀ later, finished t later = finished s later := by
  obtain ⟨hlen, hidx⟩ := hf
  cases h with
  | decompEnds hp hr =>
    simp [holdsFrame, hlen, hidx, pendingEvents, silentLeft, hp, hr, finished]
  | replayEnds hp hi =>
    cases hc : s.fxClick <;>
      simp [holdsFrame, hlen, hi, pendingEvents, silentLeft, hp, hc, clickEvents, replay, finished]

theorem DueEvent.pending {s u : State} {e : SinkEvent} (h : DueEvent s e u) (hf : holdsFrame s) :
    holdsFrame u ∧ pendingEvents s = e :: pendingEvents u ∧ silentLeft u ≤ silentLeft s ∧
    ∀ later, finished { u with trace := s.trace ++ [.sink e], sinkAnswers := later } later =
      finished s later := by
  obtain ⟨hlen, hidx⟩ := hf
  cases h with
  | decomp hp hr =>
    exact ⟨⟨hlen, hidx⟩, by simp [pendingEvents, hp, decomp_step hr], by simp [silentLeft, hp],
      by simp [finished, pendingEvents, hp, decomp_step hr]⟩
  | replay p hp hi hpt =>
    have hlt : s.fxIdx < s.fxPoints.length := by omega
    have hd : s.fxPoints.drop s.fxIdx = p :: s.fxPoints.drop (s.fxIdx + 1) := by
      rw [List.drop_eq_getElem_cons hlt]
      rw [List.getElem?_eq_getElem hlt, Option.some.injEq] at hpt
      rw [hpt]
    exact ⟨⟨hlen, show s.fxIdx + 1 ≤ s.fxPointCount by omega⟩,
      by simp [pendingEvents, hp, hd, Machine.replay], by simp [silentLeft, hp],
      by simp [finished, pendingEvents, hp, hd, Machine.replay]⟩
  | press hp =>
    exact ⟨⟨hlen, hidx⟩, by simp [pendingEvents, hp], by simp [silentLeft, hp],
      by simp [finished, pendingEvents, hp]⟩
  | release hp =>
    exact ⟨⟨hlen, hidx⟩, by simp [pendingEvents, hp], by simp [silentLeft, hp],
      by simp [finished, pendingEvents, hp]⟩

/-- A taken step from registers that hold a frame leaves such registers. -/
theorem holdsFrame_of_took {s t : State} (hf : holdsFrame s) (h : fxStep s = .took t) :
    holdsFrame t := by
  obtain ⟨-, hs | ⟨e, u, hu, he⟩⟩ := fxStep_took h
  · exact (hs.pending hf).1
  · obtain ⟨later, ⟨-, rfl⟩ | ⟨-, rfl⟩⟩ := emitSink_took he <;> exact (hu.pending hf).1

/-- Fuel beyond the steps left changes nothing. -/
theorem runFx_fuel (n m : Nat) (s : State) (hn : stepsLeft s ≤ n) (hm : stepsLeft s ≤ m) :
    runFx n s = runFx m s := by
  induction n generalizing m s with
  | zero =>
    have hp := idle_of_stepsLeft (Nat.le_zero.1 hn)
    rw [runFx_of_waits (fxStep_idle hp), runFx_of_waits (fxStep_idle hp)]
  | succ n ih =>
    cases h : fxStep s with
    | took t =>
      have hlt := stepsLeft_lt_of_took h
      obtain ⟨m, rfl⟩ : ∃ k, m = k + 1 := ⟨m - 1, by omega⟩
      rw [runFx_succ_took h, runFx_succ_took h]
      exact ih m t (by omega) (by omega)
    | waits => rw [runFx_of_waits h, runFx_of_waits h]
    | stops r =>
      cases m with
      | zero => simp [fxStep_idle (idle_of_stepsLeft (Nat.le_zero.1 hm))] at h
      | succ m => simp [runFx, h]

/-- One step of a run with fuel enough. -/
theorem runFx_step {s t : State} (h : fxStep s = .took t) {n m : Nat}
    (hn : stepsLeft s ≤ n) (hm : stepsLeft t ≤ m) : runFx n s = runFx m t := by
  have hlt := stepsLeft_lt_of_took h
  obtain ⟨k, rfl⟩ : ∃ k, n = k + 1 := ⟨n - 1, by omega⟩
  rw [runFx_succ_took h]
  exact runFx_fuel k m t (by omega) hm

/-- A run with fuel enough ends where no step is enabled. -/
theorem runFx_waits {n : Nat} {s t : State} (hn : stepsLeft s ≤ n) (h : runFx n s = .next t) :
    fxStep t = .waits := by
  induction n generalizing s with
  | zero => cases h; exact fxStep_idle (idle_of_stepsLeft (Nat.le_zero.1 hn))
  | succ n ih =>
    cases hs : fxStep s with
    | took u =>
      have hlt := stepsLeft_lt_of_took hs
      rw [runFx_succ_took hs] at h
      exact ih (by omega) h
    | waits => rw [runFx_of_waits hs] at h; cases h; exact hs
    | stops r => simp [runFx, hs] at h

/-! ### The frame in hand run on -/

/-- Where no step is enabled, running on changes nothing. -/
theorem runToIdle_of_waits {s : State} (h : fxStep s = .waits) : runToIdle s = .next s :=
  runFx_of_waits h _

/-- Running on is one step, then running on. -/
theorem runToIdle_of_took {s t : State} (h : fxStep s = .took t) : runToIdle s = runToIdle t :=
  runFx_step h (stepsLeft_le_fxFuel s) (stepsLeft_le_fxFuel t)

/-- Running on ends where no step is enabled. -/
theorem waits_of_runToIdle {s t : State} (h : runToIdle s = .next t) : fxStep t = .waits :=
  runFx_waits (stepsLeft_le_fxFuel s) h

/-- From registers that hold a frame, not halted and not idle: a silent step, or a due event. -/
theorem fxStep_progress {s : State} (hf : holdsFrame s) (hh : halted s = false)
    (hp : s.fxPhase ≠ .idle) : (∃ t, SilentStep s t) ∨ ∃ e u, DueEvent s e u := by
  rcases fxStep_cases s with (h | h) | ⟨-, h⟩ | ⟨-, h⟩ | ⟨-, -, hi, hpt, -⟩
  · simp [hh] at h
  · exact absurd h hp
  · exact .inl h
  · exact .inr h
  · rw [List.getElem?_eq_none_iff] at hpt
    obtain ⟨hlen, hidx⟩ := hf
    omega

/-- From registers that hold a frame a run never stops by a fault. -/
theorem runFx_next {s : State} (hf : holdsFrame s) (n : Nat) : ∃ t, runFx n s = .next t := by
  induction n generalizing s with
  | zero => exact ⟨s, rfl⟩
  | succ n ih =>
    cases h : fxStep s with
    | took t => rw [runFx_succ_took h]; exact ih (holdsFrame_of_took hf h)
    | waits => exact ⟨s, runFx_of_waits h _⟩
    | stops r =>
      rcases fxStep_cases s with (hh | hp) | ⟨hh, v, hv⟩ | ⟨hh, e, u, hu⟩ | ⟨-, -, hi, hpt, -⟩
      · simp [fxStep_halted hh] at h
      · simp [fxStep_idle hp] at h
      · simp [fxStep_silent hh hv] at h
      · rw [fxStep_due hh hu] at h; exact absurd h (emitSink_ne_stops e u r)
      · rw [List.getElem?_eq_none_iff] at hpt
        obtain ⟨hlen, hidx⟩ := hf
        omega

/-- A live sink finishes the frame, in as many steps as there are events and silent steps left
(43_frame_execution.md R134). -/
theorem runFx_live {s : State} {later : List SinkAnswer} (hf : holdsFrame s)
    (hh : halted s = false)
    (ha : s.sinkAnswers = List.replicate (pendingEvents s).length .ok ++ later) {n : Nat}
    (hn : (pendingEvents s).length + silentLeft s ≤ n) :
    runFx n s = .next (finished s later) := by
  induction n generalizing s with
  | zero =>
    have hp : s.fxPhase = .idle := by
      have h0 : (pendingEvents s).length = 0 ∧ silentLeft s = 0 := by omega
      revert h0; unfold pendingEvents silentLeft; split <;> simp_all
    simp only [pendingEvents, hp, List.length_nil, List.replicate_zero, List.nil_append] at ha
    simp [runFx, finished, pendingEvents, hp, ← ha]
    cases s; simp_all
  | succ n ih =>
    by_cases hp : s.fxPhase = .idle
    · rw [runFx_of_waits (fxStep_idle hp)]
      simp only [pendingEvents, hp, List.length_nil, List.replicate_zero, List.nil_append] at ha
      simp [finished, pendingEvents, hp, ← ha]
      cases s; simp_all
    · rcases fxStep_progress hf hh hp with ⟨t, ht⟩ | ⟨e, u, hu⟩
      · obtain ⟨hft, hpe, hlt, hat, -, hst, hfin⟩ := ht.pending hf
        rw [runFx_succ_took (fxStep_silent hh ht), ← hfin later]
        exact ih hft (by rw [halted_congr hst, hh]) (by rw [hat, ha, hpe]) (by rw [hpe]; omega)
      · obtain ⟨hfu, hpe, hle, hfin⟩ := hu.pending hf
        obtain ⟨-, -, -, -, -, -, -, -, -, hst, htr, -, hau, -⟩ := hu.frame
        have hans : u.sinkAnswers =
            .ok :: (List.replicate (pendingEvents u).length .ok ++ later) := by
          rw [hau, ha, hpe]; simp [List.replicate_succ]
        rw [hpe, List.length_cons] at hn
        rw [runFx_succ_took ((fxStep_due hh hu).trans (emitSink_ok hans)), ← hfin later, ← htr]
        exact ih (s := { u with
            trace := u.trace ++ [.sink e]
            sinkAnswers := List.replicate (pendingEvents u).length .ok ++ later })
          hfu ((halted_congr (s := s) hst).trans hh) rfl
          (show (pendingEvents u).length + silentLeft u ≤ n by omega)

/-- The fuel of a frame is enough for its events and its silent steps. -/
theorem pending_le_fxFuel {s : State} (hf : holdsFrame s) :
    (pendingEvents s).length + silentLeft s ≤ fxFuel s := by
  obtain ⟨hlen, hidx⟩ := hf
  have := length_decomp_le s.rem
  cases hp : s.fxPhase <;> cases hc : s.fxClick <;>
    simp [pendingEvents, silentLeft, fxFuel, hp, hc, clickEvents, replay, hlen] <;> omega

/-! ### The start of a frame -/

theorem holdsFrame_startFrame {f : Frame} {s : State} (h : f.points.length = f.pointCount) :
    holdsFrame (startFrame f s) := ⟨h, Nat.zero_le _⟩

/-- What is left at the start of a frame is all of it (43_frame_execution.md R120, R127). -/
theorem pendingEvents_startFrame (f : Frame) (s : State) :
    pendingEvents (startFrame f s) = execEvents s.params.origin.axes f := by
  cases hr : f.reset <;> simp [pendingEvents, execEvents, hr, clickEvents] <;> rfl

/-- A handoff that may be taken. -/
@[simp] theorem whenIdle_of_idle {s : State} (hh : halted s = false) (hp : s.fxPhase = .idle)
    (outcome : Host.Outcome State Fault Refusal) : whenIdle s outcome = outcome := by
  simp [whenIdle, hh, hp]

theorem whenIdle_halted {s : State} (hh : halted s = true)
    (outcome : Host.Outcome State Fault Refusal) : whenIdle s outcome = .fault .halted := by
  simp [whenIdle, hh]

theorem whenIdle_overlapping {s : State} (hh : halted s = false) (hp : s.fxPhase ≠ .idle)
    (outcome : Host.Outcome State Fault Refusal) :
    whenIdle s outcome = .refused .overlappingFeed := by
  simp [whenIdle, hh, hp]

/-- A handoff that answers a next state was taken. -/
theorem whenIdle_next {s t : State} {outcome : Host.Outcome State Fault Refusal}
    (h : whenIdle s outcome = .next t) :
    halted s = false ∧ s.fxPhase = .idle ∧ outcome = .next t := by
  unfold whenIdle at h
  split at h
  · cases h
  · split at h
    · cases h
    · simp_all

theorem execFrame_runs {f : Frame} {s : State} (hh : halted s = false) (hp : s.fxPhase = .idle)
    (h : f.points.length = f.pointCount) :
    execFrame f s = runToIdle (startFrame f s) := by
  simp [execFrame, hh, hp, h]

/-- `exec` is the execution of the instruction's frame. -/
theorem exec_eq (i : Instr) (s : State) : exec i s = execFrame i.frame s := by
  cases i <;> rfl

/-- Everything an execution that answers a next state can be: the run of the frame, or the rejection of
a miscounted one. -/
theorem execFrame_next {f : Frame} {s t : State} (h : execFrame f s = .next t) :
    halted s = false ∧ s.fxPhase = .idle ∧
    ((f.points.length = f.pointCount ∧
        runToIdle (startFrame f s) = .next t) ∨
      (f.points.length ≠ f.pointCount ∧
        t = raiseFault .decodeInconsistent (frameLength f.points.length) s)) := by
  obtain ⟨hh, hp, h⟩ := whenIdle_next h
  refine ⟨hh, hp, ?_⟩
  split at h
  · exact .inl ⟨‹_›, h⟩
  · cases h; exact .inr ⟨‹_›, rfl⟩

end Sys2Proof.Machine
end

