-- ==== Sys2Proof/Laws/Memory.lean ====
section
/-! SUPPORT. The frame buffer: read after write, the canonical form, and runs of bytes. -/

namespace Sys2Proof.Machine

/-! ### Read after write -/

theorem Memory.read_filter_same (m : Memory) (a : Nat) :
    Memory.read (m.filter fun c => c.1 != a) a = Memory.unlisted := by
  induction m with
  | nil => rfl
  | cons c m ih =>
    rw [List.filter_cons]
    split
    · rename_i h; simp only [bne_iff_ne, ne_eq] at h; simp [Memory.read, h, ih]
    · exact ih

theorem Memory.read_filter_other (m : Memory) {a k : Nat} (h : k ≠ a) :
    Memory.read (m.filter fun c => c.1 != a) k = m.read k := by
  induction m with
  | nil => rfl
  | cons c m ih =>
    rw [List.filter_cons]
    split
    · simp [Memory.read, ih]
    · rename_i hc
      simp only [bne_iff_ne, ne_eq, not_not] at hc
      rw [ih, Memory.read, if_neg (by omega)]

theorem Memory.read_insertCell_same (m : Memory) (a : Nat) (b : Byte) (h : ∀ c ∈ m, c.1 ≠ a) :
    (Memory.insertCell (a, b) m).read a = b := by
  induction m with
  | nil => simp [Memory.insertCell, Memory.read]
  | cons c m ih =>
    simp only [Memory.insertCell]
    split
    · simp [Memory.read]
    · rw [Memory.read, if_neg (h c List.mem_cons_self)]
      exact ih fun d hd => h d (List.mem_cons_of_mem _ hd)

theorem Memory.read_insertCell_other (m : Memory) {a k : Nat} (b : Byte) (h : k ≠ a) :
    (Memory.insertCell (a, b) m).read k = m.read k := by
  induction m with
  | nil => simp [Memory.insertCell, Memory.read, Ne.symm h]
  | cons c m ih =>
    simp only [Memory.insertCell]
    split
    · rw [Memory.read, if_neg (Ne.symm h)]
    · simp only [Memory.read, ih]

@[simp] theorem Memory.read_write_same (m : Memory) (a : Nat) (b : Byte) :
    (m.write a b).read a = b := by
  simp only [Memory.write]
  split
  · rename_i hb; rw [hb, Memory.read_filter_same]
  · exact Memory.read_insertCell_same _ a b fun c hc => by simpa using (List.mem_filter.1 hc).2

theorem Memory.read_write_other (m : Memory) {a k : Nat} (b : Byte) (h : k ≠ a) :
    (m.write a b).read k = m.read k := by
  simp only [Memory.write]
  split
  · exact m.read_filter_other h
  · rw [Memory.read_insertCell_other _ b h, m.read_filter_other h]

/-- Read after write, both cases at once. -/
theorem Memory.read_write (m : Memory) (a k : Nat) (b : Byte) :
    (m.write a b).read k = if k = a then b else m.read k := by
  split
  · subst k; simp
  · exact m.read_write_other b ‹_›

/-! ### The canonical form -/

/-- The canonical form in one line: offsets strictly rising, no entry an unlisted offset would hold. -/
theorem Memory.wf_iff (m : Memory) :
    m.wf = true ↔ m.Pairwise (fun c d => c.1 < d.1) ∧ ∀ c ∈ m, c.2 ≠ Memory.unlisted := by
  induction m with
  | nil => simp [Memory.wf]
  | cons c m ih =>
    cases m with
    | nil => simp [Memory.wf]
    | cons d m =>
      simp only [Memory.wf, Bool.and_eq_true, decide_eq_true_eq, ih, List.pairwise_cons,
        List.forall_mem_cons]
      constructor
      · rintro ⟨⟨h1, h2⟩, ⟨h3, h4⟩, h5, h6⟩
        exact ⟨⟨⟨h2, fun e he => h2.trans (h3 e he)⟩, h3, h4⟩, h1, h5, h6⟩
      · rintro ⟨⟨⟨h2, -⟩, h3, h4⟩, h1, h5, h6⟩
        exact ⟨⟨h1, h2⟩, ⟨h3, h4⟩, h5, h6⟩

/-- The entries of a buffer with a cell put in. -/
theorem Memory.mem_insertCell (c d : Host.Cell) (m : Memory) :
    d ∈ Memory.insertCell c m ↔ d = c ∨ d ∈ m := by
  induction m with
  | nil => simp [Memory.insertCell]
  | cons e m ih =>
    simp only [Memory.insertCell]
    split
    · simp
    · simp [ih]; tauto

theorem Memory.pairwise_insertCell (c : Host.Cell) (m : Memory) (h : ∀ d ∈ m, d.1 ≠ c.1)
    (hm : m.Pairwise fun c d => c.1 < d.1) :
    (Memory.insertCell c m).Pairwise fun c d => c.1 < d.1 := by
  induction m with
  | nil => simp [Memory.insertCell]
  | cons e m ih =>
    obtain ⟨h1, h2⟩ := List.pairwise_cons.1 hm
    simp only [Memory.insertCell]
    split
    · rename_i hlt
      refine List.pairwise_cons.2 ⟨fun d hd => ?_, hm⟩
      rcases List.mem_cons.1 hd with rfl | hd
      · exact hlt
      · exact hlt.trans (h1 d hd)
    · have hne := h e List.mem_cons_self
      refine List.pairwise_cons.2 ⟨fun d hd => ?_, ih (fun d hd => h d (List.mem_cons_of_mem _ hd)) h2⟩
      rcases (Memory.mem_insertCell c d m).1 hd with rfl | hd
      · omega
      · exact h1 d hd

/-- A write keeps the canonical form. -/
theorem Memory.wf_write (m : Memory) (a : Nat) (b : Byte) (h : m.wf = true) :
    (m.write a b).wf = true := by
  obtain ⟨hp, hv⟩ := (Memory.wf_iff m).1 h
  have hf : (m.filter fun c => c.1 != a).Pairwise fun c d => c.1 < d.1 := hp.filter _
  simp only [Memory.write]
  split
  · exact (Memory.wf_iff _).2 ⟨hf, fun c hc => hv c (List.mem_filter.1 hc).1⟩
  · rename_i hb
    refine (Memory.wf_iff _).2 ⟨Memory.pairwise_insertCell _ _ (fun d hd => by
      simpa using (List.mem_filter.1 hd).2) hf, fun c hc => ?_⟩
    rcases (Memory.mem_insertCell _ _ _).1 hc with rfl | hc
    · exact hb
    · exact hv c (List.mem_filter.1 hc).1

/-- A write adds no offset but its own. -/
theorem Memory.mem_write (m : Memory) (a : Nat) (b : Byte) {c : Host.Cell}
    (h : c ∈ m.write a b) : c.1 = a ∨ c ∈ m := by
  simp only [Memory.write] at h
  split at h
  · exact .inr (List.mem_filter.1 h).1
  · rcases (Memory.mem_insertCell _ _ _).1 h with rfl | h
    · exact .inl rfl
    · exact .inr (List.mem_filter.1 h).1

/-- A write inside the capacity leaves a buffer of the session. -/
theorem BufferOf.write {p : Params} {m : Memory} (h : BufferOf p m) {a : Nat} (ha : a < p.bufCap)
    (b : Byte) : BufferOf p (m.write a b) :=
  ⟨m.wf_write a b h.canonical, fun c hc => by
    rcases m.mem_write a b hc with hc | hc
    · omega
    · exact h.inside c hc⟩

/-! ### Runs of bytes -/

/-- `MemWrite` in range writes the one byte and changes nothing else; beyond `BUF_CAP` there is none. -/
theorem memWrite_eq (addr : Nat) (b : Byte) (s : State) :
    memWrite addr b s =
      if addr < s.params.bufCap then some { s with rsBuf := s.rsBuf.write addr b } else none := rfl

/-- `MemRead` in range answers the bytes; beyond `BUF_CAP` there are none. -/
theorem memRead_eq_some (addr n : Nat) (s : State) (bs : List Byte) :
    memRead addr n s = some bs ↔ addr + n ≤ s.params.bufCap ∧ s.rsBuf.bytes addr n = bs := by
  simp [memRead]

@[simp] theorem Memory.length_bytes (m : Memory) (addr n : Nat) : (m.bytes addr n).length = n := by
  induction n generalizing addr with
  | zero => rfl
  | succ n ih => simp [Memory.bytes, ih]

/-- Each byte of a run is the one at its offset. -/
theorem Memory.getElem?_bytes (m : Memory) (addr n k : Nat) :
    (m.bytes addr n)[k]? = if k < n then some (m.read (addr + k)) else none := by
  induction n generalizing addr k with
  | zero => simp [Memory.bytes]
  | succ n ih =>
    cases k with
    | zero => simp [Memory.bytes]
    | succ k => simp [Memory.bytes, ih, Nat.add_assoc, Nat.add_comm 1]

/-- A run of bytes depends on the bytes at its offsets alone. -/
theorem Memory.bytes_congr (m m' : Memory) (addr n : Nat)
    (h : ∀ k < n, m'.read (addr + k) = m.read (addr + k)) : m'.bytes addr n = m.bytes addr n := by
  refine List.ext_getElem? fun k => ?_
  simp only [Memory.getElem?_bytes]
  split
  · rw [h k ‹_›]
  · rfl

/-- One byte more at the end. -/
theorem Memory.bytes_succ (m : Memory) (addr n : Nat) :
    m.bytes addr (n + 1) = m.bytes addr n ++ [m.read (addr + n)] := by
  induction n generalizing addr with
  | zero => simp [Memory.bytes]
  | succ n ih =>
    rw [Memory.bytes, ih, Memory.bytes]
    simp [Nat.add_assoc, Nat.add_comm 1]

/-- A run of bytes and the byte written after it, read together. -/
theorem Memory.bytes_write_next (m : Memory) (n : Nat) (b : Byte) :
    (m.write n b).bytes 0 (n + 1) = m.bytes 0 n ++ [b] := by
  rw [Memory.bytes_succ, Memory.bytes_congr m (m.write n b) 0 n fun k hk =>
    m.read_write_other b (by omega)]
  simp

/-- Bytes written in turn: one more at the end. -/
theorem Memory.writeFrom_append (m : Memory) (addr : Nat) (bs : List Byte) (b : Byte) :
    m.writeFrom addr (bs ++ [b]) = (m.writeFrom addr bs).write (addr + bs.length) b := by
  induction bs generalizing m addr with
  | nil => rfl
  | cons c bs ih =>
    simp only [List.cons_append, Memory.writeFrom, ih, List.length_cons]
    rw [Nat.add_assoc, Nat.add_comm 1]

/-- Bytes written from offset 0 on are read back. -/
theorem Memory.bytes_writeFrom (m : Memory) (bs : List Byte) :
    (m.writeFrom 0 bs).bytes 0 bs.length = bs := by
  induction bs using List.reverseRecOn with
  | nil => rfl
  | append_singleton bs b ih =>
    rw [Memory.writeFrom_append, List.length_append, Nat.zero_add, List.length_singleton,
      Memory.bytes_write_next, ih]

/-- Bytes written in turn keep the canonical form. -/
theorem Memory.wf_writeFrom (m : Memory) (addr : Nat) (bs : List Byte) (h : m.wf = true) :
    (m.writeFrom addr bs).wf = true := by
  induction bs generalizing m addr with
  | nil => exact h
  | cons b bs ih => exact ih _ _ (m.wf_write addr b h)

/-! ### The header in the buffer -/

/-- The second header byte resolves the count. -/
@[simp] theorem headerCount_write_one (m : Memory) (b : Byte) :
    headerCount (m.write 1 b) = le16 (m.read 0) b := by
  simp [headerCount, Memory.read_write]

/-- A byte after the header leaves the count. -/
theorem headerCount_write {m : Memory} {a : Nat} (h : 2 ≤ a) (b : Byte) :
    headerCount (m.write a b) = headerCount m := by
  simp only [headerCount, Memory.read_write]
  rw [if_neg (by omega), if_neg (by omega)]

/-- The count a run of bytes from offset 0 declares is the one in the buffer. -/
theorem declaredCount_bytes (m : Memory) {n : Nat} (h : 2 ≤ n) :
    declaredCount (m.bytes 0 n) = headerCount m := by
  obtain ⟨n, rfl⟩ : ∃ k, n = k + 2 := ⟨n - 2, by omega⟩
  rfl

end Sys2Proof.Machine
end

