-- ==== Sys2Proof/Laws/PerInstr.lean ====
section
/-! SUPPORT. The statements made of every instruction as syntax, one lemma per constructor. -/

/-- The frame-length invariant (30_encoding.md R51): a well-formed instruction is encoded in
`4 + 2*point_count` bytes. -/
def Sys2Proof.Laws.FrameLength.Statement (i : Sys2Proof.Instr) : Prop :=
  i.wf = true → (Sys2Proof.encode i).length = Sys2Proof.frameLength i.frame.pointCount

theorem Sys2Proof.Laws.FrameLength.frameM (pointCount : Nat) (points : List Sys2Proof.Point) :
    Sys2Proof.Laws.FrameLength.Statement (.frameM pointCount points) :=
  Sys2Proof.length_encode

theorem Sys2Proof.Laws.FrameLength.frameMC (pointCount : Nat) (points : List Sys2Proof.Point) :
    Sys2Proof.Laws.FrameLength.Statement (.frameMC pointCount points) :=
  Sys2Proof.length_encode

theorem Sys2Proof.Laws.FrameLength.frameRM (pointCount : Nat) (points : List Sys2Proof.Point) :
    Sys2Proof.Laws.FrameLength.Statement (.frameRM pointCount points) :=
  Sys2Proof.length_encode

theorem Sys2Proof.Laws.FrameLength.frameRMC (pointCount : Nat) (points : List Sys2Proof.Point) :
    Sys2Proof.Laws.FrameLength.Statement (.frameRMC pointCount points) :=
  Sys2Proof.length_encode
end

