-- ==== Sys2Proof/Laws/Reassembler.lean ====
section
/-! SUPPORT. Everything a PUSH can do in the Reassembler, said once, and when it can do it. -/

namespace Sys2Proof.Machine

/-- One constructor per case of PUSH (40_reassembler.md R71 to R75): the state it leaves and the frame it
hands off. -/
inductive Pushed (b : Byte) (s : State) : State → Option (List Byte) → Prop where
  | first : s.rsPhase = .idle → s.rsCount = 0 → 0 < s.params.bufCap →
      Pushed b s { s with rsBuf := s.rsBuf.write 0 b, rsCount := 1 } none
  | header : s.rsPhase = .idle → s.rsCount = 1 → 1 < s.params.bufCap →
      le16 (s.rsBuf.read 0) b ≤ s.params.maxPoints.toNat →
      Pushed b s { s with
        rsBuf := s.rsBuf.write 1 b, rsCount := 2, rsPhase := .collect,
        rsExpected := some (frameLength (le16 (s.rsBuf.read 0) b)) } none
  | oversize : s.rsPhase = .idle → s.rsCount = 1 → 1 < s.params.bufCap →
      s.params.maxPoints.toNat < le16 (s.rsBuf.read 0) b →
      Pushed b s (raiseFault .frameOversize (le16 (s.rsBuf.read 0) b) { s with
        rsBuf := s.rsBuf.write 1 b, rsCount := 2, rsPhase := .skip,
        rsExpected := some (frameLength (le16 (s.rsBuf.read 0) b)) }) none
  | stored (len : Nat) : s.rsPhase = .collect → s.rsExpected = some len →
      s.rsCount < s.params.bufCap → s.rsCount + 1 < len →
      Pushed b s { s with rsBuf := s.rsBuf.write s.rsCount b, rsCount := s.rsCount + 1 } none
  | completed (len : Nat) : s.rsPhase = .collect → s.rsExpected = some len →
      s.rsCount < s.params.bufCap → len ≤ s.rsCount + 1 →
      Pushed b s { s with
        rsBuf := s.rsBuf.write s.rsCount b, rsPhase := .idle, rsExpected := none, rsCount := 0 }
        (some ((s.rsBuf.write s.rsCount b).bytes 0 len))
  | skipped (len : Nat) : s.rsPhase = .skip → s.rsExpected = some len → s.rsCount + 1 < len →
      Pushed b s { s with rsCount := s.rsCount + 1 } none
  | skipEnds (len : Nat) : s.rsPhase = .skip → s.rsExpected = some len → len ≤ s.rsCount + 1 →
      Pushed b s { s with rsPhase := .idle, rsExpected := none, rsCount := 0 } none

/-- Each case of PUSH happens where its rule says. -/
theorem reassemble_of_pushed {b : Byte} {s t : State} {out : Option (List Byte)}
    (h : Pushed b s t out) : reassemble b s = .next (t, out) := by
  cases h with
  | first hp hc hcap => simp [reassemble, hp, hc, pushFirstByte, memWrite, hcap]
  | header hp hc hcap hle =>
    simp [reassemble, hp, hc, pushSecondByte, memWrite, hcap, hle]
  | oversize hp hc hcap hgt =>
    simp [reassemble, hp, hc, pushSecondByte, memWrite, hcap, Nat.not_le.2 hgt]
  | stored len hp he hcap hlt =>
    simp [reassemble, hp, he, pushCollect, memWrite, hcap, Nat.not_le.2 hlt]
  | completed len hp he hcap hle =>
    have : len ≤ s.params.bufCap := by omega
    simp [reassemble, hp, he, pushCollect, memWrite, frameBytes, memRead, hcap, hle, this]
  | skipped len hp he hlt => simp [reassemble, hp, he, pushSkip, Nat.not_le.2 hlt]
  | skipEnds len hp he hle => simp [reassemble, hp, he, pushSkip, hle]

/-- Everything the Reassembler's part of a PUSH that took place can have done. -/
theorem pushed_of_reassemble {b : Byte} {s t : State} {out : Option (List Byte)}
    (h : reassemble b s = .next (t, out)) : Pushed b s t out := by
  unfold reassemble at h
  split at h
  · rename_i hp
    split at h
    · rename_i hc
      unfold pushFirstByte memWrite at h
      split at h
      · rename_i hw
        split at hw
        · cases hw; cases h; exact .first hp hc ‹_›
        · cases hw
      · cases h
    · rename_i hc
      unfold pushSecondByte memWrite at h
      split at h
      · rename_i hw
        split at hw
        · cases hw
          simp only [headerCount_write_one] at h
          split at h
          · cases h; exact .header hp hc ‹_› ‹_›
          · cases h; exact .oversize hp hc ‹_› (Nat.not_le.1 ‹_›)
        · cases hw
      · cases h
    · cases h
  · rename_i hp he
    unfold pushCollect memWrite at h
    split at h
    · rename_i hw
      split at hw
      · cases hw
        split at h
        · split at h
          · rename_i hf
            obtain ⟨-, rfl⟩ := (memRead_eq_some _ _ _ _).1 hf
            cases h; exact .completed _ hp he ‹_› ‹_›
          · cases h
        · cases h; exact .stored _ hp he ‹_› (by omega)
      · cases hw
    · cases h
  · rename_i hp he
    unfold pushSkip at h
    split at h
    · cases h; exact .skipEnds _ hp he ‹_›
    · cases h; exact .skipped _ hp he (by omega)
  · cases h

/-- What no PUSH changes in the Reassembler's part, but for the fault of an oversize frame: the
configuration, the executor, the environment. -/
theorem Pushed.frame {b : Byte} {s t : State} {out : Option (List Byte)} (h : Pushed b s t out) :
    t.params = s.params ∧ t.fxPhase = s.fxPhase ∧ t.fxPointCount = s.fxPointCount ∧
    t.fxClick = s.fxClick ∧ t.fxReset = s.fxReset ∧ t.fxIdx = s.fxIdx ∧
    t.fxPoints = s.fxPoints ∧ t.rem = s.rem ∧ t.input = s.input ∧
    t.sinkAnswers = s.sinkAnswers ∧ t.resetIn = s.resetIn ∧ halted t = halted s ∧
    t.bufAfterReset = s.bufAfterReset := by
  cases h <;> simp [halted_congr (s := s)]

/-- From a state with the invariant every byte is accepted (40_reassembler.md R70: PUSH is total on its
operand). -/
theorem pushed_total {s : State} (hi : Inv s) (b : Byte) : ∃ t out, Pushed b s t out := by
  have hcap : 4 ≤ s.params.bufCap := by unfold Params.bufCap; omega
  cases hp : s.rsPhase with
  | idle =>
    have hc := hi.reassembler.idle_count hp
    rcases Nat.lt_or_ge s.rsCount 1 with h0 | h1
    · exact ⟨_, _, .first hp (by omega) (by omega)⟩
    · have h1 : s.rsCount = 1 := by omega
      rcases Nat.lt_or_ge s.params.maxPoints.toNat (le16 (s.rsBuf.read 0) b) with hgt | hle
      · exact ⟨_, _, .oversize hp h1 (by omega) hgt⟩
      · exact ⟨_, _, .header hp h1 (by omega) hle⟩
  | collect =>
    obtain ⟨len, he, -, hle, -, -, hlt⟩ := hi.reassembler.collect hp
    rcases Nat.lt_or_ge (s.rsCount + 1) len with h | h
    · exact ⟨_, _, .stored len hp he (by omega) h⟩
    · exact ⟨_, _, .completed len hp he (by omega) h⟩
  | skip =>
    obtain ⟨len, he, -⟩ := hi.reassembler.skip hp
    rcases Nat.lt_or_ge (s.rsCount + 1) len with h | h
    · exact ⟨_, _, .skipped len hp he h⟩
    · exact ⟨_, _, .skipEnds len hp he h⟩

/-- PUSH, from its case in the Reassembler. -/
theorem push_of_pushed {b : Byte} {s t : State} {out : Option (List Byte)} (h : Pushed b s t out) :
    push b s = match out with
      | none => .next t
      | some frame => handoff frame t := by
  simp only [push, reassemble_of_pushed h]
  cases out <;> rfl

/-- Everything a PUSH that answers a next state can have done. -/
theorem push_next {b : Byte} {s u : State} (h : push b s = .next u) :
    Pushed b s u none ∨ ∃ t frame, Pushed b s t (some frame) ∧ handoff frame t = .next u := by
  unfold push at h
  split at h
  · rename_i t ht; cases h; exact .inl (pushed_of_reassemble ht)
  · rename_i t frame ht; exact .inr ⟨t, frame, pushed_of_reassemble ht, h⟩
  · cases h
  · cases h

/-- Everything a handoff that answers a next state can have done. -/
theorem handoff_next {frame : List Byte} {s t : State} (h : handoff frame s = .next t) :
    halted s = false ∧ s.fxPhase = .idle ∧
    ((∃ i, decode frame = .frame i ∧ exec i s = .next t) ∨
      (∃ why, decode frame = .reject why ∧
        t = raiseFault .decodeInconsistent frame.length s)) := by
  unfold handoff at h
  split at h
  · obtain ⟨hh, hp, -⟩ := execFrame_next ((exec_eq _ _).symm.trans h)
    exact ⟨hh, hp, .inl ⟨_, ‹_›, h⟩⟩
  · obtain ⟨hh, hp, h⟩ := whenIdle_next h
    cases h; exact ⟨hh, hp, .inr ⟨_, ‹_›, rfl⟩⟩

/-- A handoff that cannot be taken stops alike, whatever the bytes. -/
theorem handoff_halted {s : State} (hh : halted s = true) (frame : List Byte) :
    handoff frame s = .fault .halted := by
  unfold handoff; split
  · rw [exec_eq]; exact whenIdle_halted hh _
  · exact whenIdle_halted hh _

theorem handoff_overlapping {s : State} (hh : halted s = false) (hp : s.fxPhase ≠ .idle)
    (frame : List Byte) : handoff frame s = .refused .overlappingFeed := by
  unfold handoff; split
  · rw [exec_eq]; exact whenIdle_overlapping hh hp _
  · exact whenIdle_overlapping hh hp _

/-! ### FEED -/

theorem pushEnabled_eq {s : State} (hh : halted s = false) (hp : s.fxPhase = .idle) :
    pushEnabled s = true := by
  simp [pushEnabled, hh, hp]

/-- FEED where PUSH is enabled and the byte completes no frame. -/
theorem feed_of_pushed {b : Byte} {bs : List Byte} {s t : State} (hh : halted s = false)
    (hp : s.fxPhase = .idle) (h : Pushed b s t none) : feed (b :: bs) s = feed bs t := by
  simp [feed, runToIdle_of_waits (fxStep_idle hp), pushEnabled_eq hh hp, reassemble_of_pushed h]

/-- FEED runs the frame in hand on before it takes a byte. -/
theorem feed_of_took {b : Byte} {bs : List Byte} {s t : State} (h : fxStep s = .took t) :
    feed (b :: bs) s = feed (b :: bs) t := by
  simp only [feed, runToIdle_of_took h]

/-- FEED where the executor can take no step and PUSH is not enabled. -/
theorem feed_given_back {chunk : List Byte} {s : State} (h : fxStep s = .waits)
    (he : pushEnabled s = false) : feed chunk s = .next ⟨s, [], chunk⟩ := by
  cases chunk <;> simp [feed, runToIdle_of_waits h, he]

end Sys2Proof.Machine
end

