-- ==== Sys2Proof/Laws/Step.lean ====
section
/-! SUPPORT. Everything one step of the machine can do, said once. -/

namespace Sys2Proof.Machine

/-- One constructor per operation of the consumer that answers a next state. -/
inductive Stepped (s : State) : State → Prop where
  | reset : s.resetIn = true → Stepped s (afterReset s)
  | noInput : readyForInput s → s.input = [] → Stepped s s
  | transportFatal (later : List InItem) : readyForInput s → s.input = .fatal :: later →
      Stepped s (raiseFault .transportFatal 0 { s with input := later })
  | pushed (b : Byte) (later : List InItem) (t : State) : readyForInput s →
      s.input = .byte b :: later → Pushed b { s with input := later } t none → Stepped s t
  | ran (b : Byte) (later : List InItem) (t u : State) (frame : List Byte) : readyForInput s →
      s.input = .byte b :: later → Pushed b { s with input := later } t (some frame) →
      handoff frame t = .next u → Stepped s u
  | continued (t : State) : executing s → fxStep s = .took t → Stepped s t
  | sinkSilent : executing s → fxStep s = .waits → Stepped s s

/-- Everything a step that answers a next state can have done. -/
theorem stepped_of_step {s t : State} (h : step s = .next t) : Stepped s t := by
  unfold step nextOperation at h
  split at h
  · cases h; exact .reset ‹_›
  · rename_i hr
    split at h
    · cases h
    · rename_i hh
      split at h
      · rename_i hp
        have ready : readyForInput s := ⟨by simpa using hr, by simpa using hh, hp⟩
        unfold takeInput at h
        split at h
        · cases h; exact .noInput ready ‹_›
        · rename_i b later hin
          rcases push_next h with hpu | ⟨u, frame, hpu, hho⟩
          · exact .pushed b later t ready hin hpu
          · exact .ran b later u t frame ready hin hpu hho
        · rename_i later hin
          cases h; exact .transportFatal later ready hin
      · rename_i hp
        have busy : executing s := ⟨by simpa using hr, by simpa using hh, hp⟩
        unfold continueFrame at h
        split at h
        · cases h; exact .continued _ busy ‹_›
        · cases h; exact .sinkSilent busy ‹_›
        · cases h

/-- The next operation at IN. -/
theorem step_of_ready {s : State} (h : readyForInput s) : step s = takeInput s := by
  obtain ⟨hr, hh, hp⟩ := h
  simp [step, nextOperation, hr, hh, hp]

/-- The next operation of a frame that is executing. -/
theorem step_of_executing {s : State} (h : executing s) : step s = continueFrame s := by
  obtain ⟨hr, hh, hp⟩ := h
  simp [step, nextOperation, hr, hh, hp]

/-- A byte at IN is pushed. -/
theorem step_byte {s : State} {b : Byte} {later : List InItem} (h : readyForInput s)
    (hin : s.input = .byte b :: later) : step s = push b { s with input := later } := by
  rw [step_of_ready h, takeInput, hin]

/-- A byte that completes no frame: the step is the Reassembler's case. -/
theorem step_pushed {s t : State} {b : Byte} {later : List InItem} (h : readyForInput s)
    (hin : s.input = .byte b :: later) (hp : Pushed b { s with input := later } t none) :
    step s = .next t := by
  rw [step_byte h hin, push_of_pushed hp]

/-- A byte that completes a frame: the step is the handoff of the frame. -/
theorem step_completed {s t : State} {b : Byte} {later : List InItem} {frame : List Byte}
    (h : readyForInput s) (hin : s.input = .byte b :: later)
    (hp : Pushed b { s with input := later } t (some frame)) : step s = handoff frame t := by
  rw [step_byte h hin, push_of_pushed hp]

/-- A handed-off frame has its declared length, so DECODE accepts it (41_decoder.md R98). -/
theorem decode_of_completed {b : Byte} {s t : State} {frame : List Byte} (hi : Inv s)
    (h : Pushed b s t (some frame)) : ∃ i, decode frame = .frame i := by
  cases h with
  | completed len hp he hcap hle =>
    obtain ⟨len', he', h4, -, -, h2, hlt⟩ := hi.reassembler.collect hp
    obtain rfl : len = len' := Option.some.inj (he.symm.trans he')
    have hlen : len = frameLength (headerCount s.rsBuf) :=
      Option.some.inj (he.symm.trans (hi.reassembler.header hp))
    refine decode_of_declared (by simp; omega) ?_
    rw [Memory.length_bytes, declaredCount_bytes _ (by omega), headerCount_write h2, hlen]

end Sys2Proof.Machine
end

