-- ==== Sys2Proof/Tests/Slice0.lean ====
section
/-! SUPPORT. The model's own tests, each on a word or a vector the spec itself gives (named in its comment),
and one witness for the hypotheses of every statement of Certificates/Slice0/Obligations.lean. -/

namespace Sys2Proof.Tests

open Sys2Proof Sys2Proof.Machine

/-! ### Decoding, on words of 95_test_vectors.md -/

/-- B3.1 (EH's own example, A1). -/
theorem test_decode_frameMC :
    decode [0x02, 0x00, 0x01, 0x00, 0x05, 0x05, 0xFA, 0xFA] =
      .frame (.frameMC 2 [⟨5, 5⟩, ⟨-6, -6⟩]) := by decide

/-- B3.4: flag bytes `02` and `FF` are clear, `80` is -128. -/
theorem test_decode_frameM :
    decode [0x01, 0x00, 0x02, 0xFF, 0x80, 0x7F] = .frame (.frameM 1 [⟨-128, 127⟩]) := by decide

/-- B3.5: flag bytes with bit 0 set and not equal to 1 are clear. -/
theorem test_decode_flag_is_whole_byte :
    decode [0x01, 0x00, 0x03, 0x81, 0x81, 0xFF] = .frame (.frameM 1 [⟨-127, -1⟩]) := by decide

/-- B7.5. -/
theorem test_decode_frameRM :
    decode [0x01, 0x00, 0x00, 0x01, 0x02, 0x03] = .frame (.frameRM 1 [⟨2, 3⟩]) := by decide

/-- B7.10. -/
theorem test_decode_frameRMC :
    decode [0x01, 0x00, 0x01, 0x01, 0x01, 0x01] = .frame (.frameRMC 1 [⟨1, 1⟩]) := by decide

/-- B3.7 to B3.11: shorter than a header, shorter and longer than declared. -/
theorem test_decode_rejects :
    decode [] = .reject .headerMissing ∧ decode [0x02] = .reject .headerMissing ∧
    decode [0x02, 0x00, 0x01, 0x00, 0x05, 0x05, 0xFA] = .reject .lengthMismatch ∧
    decode [0x00, 0x00, 0x00, 0x00, 0x00] = .reject .lengthMismatch ∧
    decode [0x01, 0x00] = .reject .lengthMismatch := by decide

/-- B4.1 to B4.4. -/
theorem test_encode :
    encode (.frameMC 2 [⟨5, 5⟩, ⟨-6, -6⟩]) = [0x02, 0x00, 0x01, 0x00, 0x05, 0x05, 0xFA, 0xFA] ∧
    encode Instr.home = [0x00, 0x00, 0x00, 0x01] ∧
    encode (.frameM 1 [⟨-128, 127⟩]) = [0x01, 0x00, 0x00, 0x00, 0x80, 0x7F] ∧
    encode (.frameRMC 1 [⟨-1, 0⟩]) = [0x01, 0x00, 0x01, 0x01, 0xFF, 0x00] := by decide

/-- The canonical headers of 30_encoding.md R57 with `point_count = 0`, as the numbers of the opcode
table. -/
theorem test_table_words :
    decodeTableWord 32 0x00000000 = some Instr.nop ∧
    decodeTableWord 32 0x00010000 = some Instr.clickOnly ∧
    decodeTableWord 32 0x01000000 = some Instr.home ∧
    decodeTableWord 32 0x01010000 = some Instr.homeClick := by decide

/-- B2.9: the fifth byte belongs to the next frame. -/
theorem test_parse_keeps_excess :
    parse [0x00, 0x00, 0x00, 0x00, 0x01] = ([[0x00, 0x00, 0x00, 0x00]], [0x01]) := by decide

/-! ### Well-formedness: one ill-formed term for each check -/

theorem test_wf_accepts : (Instr.frameMC 2 [⟨-128, 127⟩, ⟨0, 0⟩]).wf = true := by decide

theorem test_wf_refuses_count_over_u16 :
    (Instr.frameM 65536 (List.replicate 65536 ⟨0, 0⟩)).wf = false := rfl

theorem test_wf_refuses_miscounted_points : (Instr.frameRM 2 [⟨1, 1⟩]).wf = false := by decide

theorem test_wf_refuses_dx_over_i8 : (Instr.frameM 1 [⟨128, 0⟩]).wf = false := by decide

theorem test_wf_refuses_dy_under_i8 : (Instr.frameRMC 1 [⟨0, -129⟩]).wf = false := by decide

/-! ### The Quantizer -/

/-- B5.8. -/
theorem test_decomp_axes_independent :
    decomp ⟨300, -130, 1, -127⟩ =
      [⟨127, -127, 1, -127⟩, ⟨127, -3, 0, 0⟩, ⟨46, 0, 0, 0⟩] := by decide

/-- B5.5, B5.6: the bound is symmetric, and no short step where the remainder is 0. -/
theorem test_decomp_bounds :
    decomp ⟨-128, 0, 0, 0⟩ = [⟨-127, 0, 0, 0⟩, ⟨-1, 0, 0, 0⟩] ∧
    decomp ⟨254, 0, 0, 0⟩ = [⟨127, 0, 0, 0⟩, ⟨127, 0, 0, 0⟩] := by decide

/-- B5.13 by the length law of 42_quantizer.md R104, at both ends of the 32-bit range. -/
theorem test_decomp_length_extremes :
    decompLength ⟨2147483647, 0, 0, 0⟩ = 16909321 ∧
    decompLength ⟨-2147483648, 0, 0, 0⟩ = 16909321 := by decide

/-! ### Small states -/

/-- A session with `MAX_POINTS = 2` and the `ORIGIN` of B8. -/
def session : Params := ⟨2, ⟨128, 0, 0, 0⟩⟩

/-- The block after reset in a session, with bytes at IN and answers ready. -/
def idleWith (p : Params) (bytes : List Byte) (answers : List SinkAnswer) : State :=
  { State.resetWith p [] with input := bytes.map .byte, sinkAnswers := answers }

/-- The state a step or a frame answered, if it answered one. -/
def answered (o : Host.Outcome State Fault Refusal) : Option State :=
  match o with
  | .next s => some s
  | .fault _ => none
  | .refused _ => none

/-- The trace a step or a frame answered. -/
def traceOf (o : Host.Outcome State Fault Refusal) : Option (List Event) :=
  (answered o).map fun s => s.trace

/-- A session with `ORIGIN = (x, y, v, h)`. -/
def withOrigin (x y v h : BitVec 32) : Params := ⟨10, ⟨x, y, v, h⟩⟩

/-- The Reassembler with the first bytes of a frame in the buffer and one byte at IN. -/
def collecting (p : Params) (held : List Byte) (next : Byte) (len : Nat) : State :=
  { idleWith p [next] (List.replicate 8 .ok) with
    rsPhase := .collect, rsExpected := some len, rsCount := held.length,
    rsBuf := Memory.writeFrom [] 0 held }

/-- The frame of B8, `[01,00,01,01,0A,0A]`, in execution. -/
def midFrame (stage : FxPhase) (idx : Nat) (rem : Axes) (answers : List SinkAnswer) : State :=
  { idleWith session [0x00] answers with
    rsBuf := Memory.writeFrom [] 0 [0x01, 0x00, 0x01, 0x01, 0x0A, 0x0A], fxPhase := stage
    fxPointCount := 1, fxClick := true, fxReset := true, fxIdx := idx, fxPoints := [⟨10, 10⟩]
    rem := rem }

/-- A halted block. -/
def haltedState : State := { State.resetWith session [] with stFlags := 0b0100 }

/-! ### The four frame kinds -/

/-- B7.1. -/
theorem test_frameM :
    traceOf (exec (.frameM 1 [⟨1, -1⟩]) (idleWith session [] [.ok])) =
      some [.sink (.move ⟨1, -1, 0, 0⟩)] := by decide

/-- P7: -128 is replayed as -128, and no `ORIGIN` is run. -/
theorem test_frameM_verbatim :
    traceOf (exec (.frameM 2 [⟨-128, 127⟩, ⟨-127, 0⟩])
        (idleWith (withOrigin 5 0 0 0) [] [.ok, .ok])) =
      some [.sink (.move ⟨-128, 127, 0, 0⟩), .sink (.move ⟨-127, 0, 0, 0⟩)] := by decide

/-- B7.3 (EH's own scenario, A1). -/
theorem test_frameMC :
    traceOf (exec (.frameMC 2 [⟨5, 5⟩, ⟨-6, -6⟩]) (idleWith session [] [.ok, .ok, .ok, .ok])) =
      some [.sink (.move ⟨5, 5, 0, 0⟩), .sink (.move ⟨-6, -6, 0, 0⟩),
        .sink (.button true), .sink (.button false)] := by decide

/-- B7.5. -/
theorem test_frameRM :
    traceOf (exec (.frameRM 1 [⟨2, 3⟩])
        (idleWith (withOrigin (-300) 50 0 0) [] [.ok, .ok, .ok, .ok])) =
      some [.sink (.move ⟨-127, 50, 0, 0⟩), .sink (.move ⟨-127, 0, 0, 0⟩),
        .sink (.move ⟨-46, 0, 0, 0⟩), .sink (.move ⟨2, 3, 0, 0⟩)] := by decide

/-- B7.10. -/
theorem test_frameRMC :
    traceOf (exec (.frameRMC 1 [⟨1, 1⟩])
        (idleWith (withOrigin 0 0 7 (-7)) [] [.ok, .ok, .ok, .ok])) =
      some [.sink (.move ⟨0, 0, 7, -7⟩), .sink (.move ⟨1, 1, 0, 0⟩),
        .sink (.button true), .sink (.button false)] := by decide

/-- B9.3: `fatal` to the press halts between press and release. -/
theorem test_frameRMC_fatal_at_press :
    (answered (exec (.frameRMC 1 [⟨10, 10⟩])
        (idleWith session [] [.ok, .ok, .ok, .fatal]))).map
        (fun s => (s.trace.drop 3, s.fxPhase, s.fxIdx, s.stFlags, halted s)) =
      some ([.sink (.button true), .diag .sinkFatal 0], .release, 1, 0b0100, true) := by decide

/-! ### Steps of the Reassembler, the executor and the environment -/

/-- B1.4: the byte that completes the frame runs it. -/
theorem test_step_completes_frame :
    (answered (step (collecting session [0x02, 0x00, 0x01, 0x00, 0x05, 0x05, 0xFA] 0xFA 8))).map
        (fun s => (statusView s, s.trace)) =
      some (⟨.idle, none, 0, .idle, 0⟩,
        [.sink (.move ⟨5, 5, 0, 0⟩), .sink (.move ⟨-6, -6, 0, 0⟩),
          .sink (.button true), .sink (.button false)]) := by decide

/-- B1.8: `n = 101 > 100` is dropped at the second header byte. -/
theorem test_step_oversize :
    (answered (step { idleWith ⟨100, ⟨0, 0, 0, 0⟩⟩ [0x00] [] with
        rsCount := 1, rsBuf := [(0, 0x65)] })).map (fun s => (statusView s, s.trace)) =
      some (⟨.skip, some 206, 2, .idle, 0b0001⟩, [.diag .frameOversize 101]) := by decide

/-- B8, step 1. -/
theorem test_step_decomp :
    (answered (step (midFrame .decomp 0 ⟨128, 0, 0, 0⟩ [.ok]))).map
        (fun s => (s.fxPhase, s.rem, s.trace, s.input)) =
      some (.decomp, ⟨1, 0, 0, 0⟩, [.sink (.move ⟨127, 0, 0, 0⟩)], [.byte 0x00]) := by decide

/-- B9.5: the transport dies with a frame pending. -/
theorem test_step_transport_fatal :
    (answered (step { collecting session [0x02, 0x00, 0x01] 0x00 8 with input := [.fatal] })).map
        (fun s => (statusView s, s.trace)) =
      some (⟨.collect, some 8, 3, .idle, 0b1000⟩, [.diag .transportFatal 0]) := by decide

/-- What FEED left: the view of the state, the trace, the frames handed off and the bytes given back. -/
def fedOf (o : Host.Outcome Fed Fault Refusal) :
    Option (StatusView × List Event × List (List Byte) × List Byte) :=
  match o with
  | .next fed => some (statusView fed.state, fed.state.trace, fed.frames, fed.unconsumed)
  | .fault _ => none
  | .refused _ => none

/-- R77 on B8's frame at step 6: FEED runs the press and the release, then takes the chunk. -/
theorem test_feed_waits_for_the_frame :
    fedOf (feed [0x00, 0x00] (midFrame .press 1 Axes.zero [.ok, .ok])) =
      some (⟨.collect, some 4, 2, .idle, 0⟩, [.sink (.button true), .sink (.button false)],
        [], []) := by decide

/-- R77, R145: `fatal` to the press stops the FEED with the chunk not consumed. -/
theorem test_feed_stops_when_halted :
    fedOf (feed [0x00, 0x00] (midFrame .press 1 Axes.zero [.fatal, .ok])) =
      some (⟨.idle, none, 0, .release, 0b0100⟩, [.sink (.button true), .diag .sinkFatal 0],
        [], [0x00, 0x00]) := by decide

/-- B10.2: reset leaves the halt and emits nothing. -/
theorem test_step_reset_of_halted :
    (answered (step { haltedState with resetIn := true })).map
        (fun s => (statusView s, s.trace)) =
      some (⟨.idle, none, 0, .idle, 0⟩, []) := by decide

/-- R22, U8: reset leaves in the buffer the bytes chance has ready, here one at each end. -/
theorem test_step_reset_leaves_any_bytes :
    (answered (step { haltedState with
        resetIn := true, bufAfterReset := [(0, 0x55), (7, 0xAA)] })).map
        (fun s => (s.rsBuf.read 0, s.rsBuf.read 1, s.rsBuf.read 7)) =
      some (0x55, 0x00, 0xAA) := by decide

/-- A placed table row is the very next thing that runs (log 4); its events are those of B7.4. -/
theorem test_placed_row_runs :
    traceOf (step (State.reset.withFetchWord 32 0x00010000)) =
      some [.sink (.button true), .sink (.button false)] := by decide

/-! ### Witnesses: a concrete state and operands that meet all the hypotheses of each statement -/

theorem reset_inv : Inv State.reset where
  buffer := ⟨by decide, by decide⟩
  atReset := ⟨by decide, by decide⟩
  reassembler := ⟨by decide, by decide, by decide, by decide, by decide⟩
  executor := by constructor <;> simp [State.reset, State.resetWith]

theorem idle_inv (bytes : List Byte) (answers : List SinkAnswer) :
    Inv (idleWith session bytes answers) where
  buffer := ⟨rfl, by simp [idleWith, State.resetWith]⟩
  atReset := ⟨rfl, by simp [idleWith, State.resetWith]⟩
  reassembler := by constructor <;> simp [idleWith, State.resetWith]
  executor := by constructor <;> simp [idleWith, State.resetWith]

/-- Every stage of the frame of B8 meets the invariant. -/
theorem midFrame_inv (stage : FxPhase) (idx : Nat) (rem : Axes) (answers : List SinkAnswer)
    (hidx : idx ≤ 1) (hdecomp : stage = .decomp → idx = 0 ∧ axesBetween rem ⟨128, 0, 0, 0⟩)
    (hbutton : stage = .press ∨ stage = .release → idx = 1) :
    Inv (midFrame stage idx rem answers) where
  buffer := ⟨rfl, by
    show ∀ c ∈ Memory.writeFrom [] 0 [0x01, 0x00, 0x01, 0x01, 0x0A, 0x0A], c.1 < session.bufCap
    decide⟩
  atReset := ⟨rfl, by simp [midFrame, idleWith, State.resetWith]⟩
  reassembler := by constructor <;> simp [midFrame, idleWith, State.resetWith]
  executor := by
    have origin : (midFrame stage idx rem answers).params.origin.axes = ⟨128, 0, 0, 0⟩ := rfl
    constructor
    · intro _; exact ⟨rfl, rfl⟩
    · intro _; exact Nat.le_of_ble_eq_true rfl
    · intro _; exact Nat.le_of_ble_eq_true rfl
    · intro _; exact hidx
    · intro _; rfl
    · intro _; rfl
    · intro _; rfl
    · intro _; rfl
    · intro _; rfl
    · intro _ i hi
      obtain rfl : i = 0 := by simp only [midFrame] at hi; omega
      rfl
    · intro h; rw [origin]; exact ⟨rfl, hdecomp h⟩
    · intro h; exact ⟨rfl, hbutton h⟩

/-- A frame that collects, `[02,00,01]` so far, meets the invariant. -/
theorem collecting_inv : Inv (collecting session [0x02, 0x00, 0x01] 0x00 8) where
  buffer := ⟨by decide, by decide⟩
  atReset := ⟨by decide, by decide⟩
  reassembler := by
    constructor
    · decide
    · decide
    · intro _; exact ⟨8, by decide⟩
    · decide
    · decide
  executor := by constructor <;> simp [collecting, idleWith, State.resetWith]

/-- A dropped frame of three points, two bytes into its skip, meets the invariant. -/
theorem skipping_inv :
    Inv { idleWith session [0x00] [] with
      rsPhase := .skip, rsExpected := some 10, rsCount := 2, rsBuf := [(0, 0x03)]
      stFlags := 0b0001 } where
  buffer := ⟨by decide, by decide⟩
  atReset := ⟨by decide, by decide⟩
  reassembler := by
    constructor
    · decide
    · decide
    · decide
    · intro _; exact ⟨10, by decide⟩
    · decide
  executor := by constructor <;> simp [idleWith, State.resetWith]

/-! The witnesses of the statements about reset, state and ordering. -/

theorem witness_ResetIsTakenInEveryState : { haltedState with resetIn := true }.resetIn = true := rfl

/-- A PUSH and an executor step, each in a state with the invariant; the sink's answer is there. -/
theorem witness_StepKeepsInv :
    (Inv (idleWith session [0x02] []) ∧ (answered (step (idleWith session [0x02] []))).isSome) ∧
    (Inv (midFrame .decomp 0 ⟨128, 0, 0, 0⟩ [.ok]) ∧
      (answered (step (midFrame .decomp 0 ⟨128, 0, 0, 0⟩ [.ok]))).isSome) :=
  ⟨⟨idle_inv _ _, rfl⟩,
    midFrame_inv _ _ _ _ (by decide) (by simp [axesBetween, between]) (by simp), rfl⟩

theorem witness_StepStopsOnlyWhenHalted :
    Inv (idleWith session [0x02] []) ∧ (idleWith session [0x02] []).resetIn = false ∧
      halted (idleWith session [0x02] []) = false := ⟨idle_inv _ _, rfl, rfl⟩

theorem witness_StepKeepsConfiguration :
    (answered (step (idleWith session [0x02] []))).isSome = true := rfl

/-- A sticky flag and a step that is no reset. -/
theorem witness_FlagsClearedOnlyByReset :
    let s := { idleWith session [0x02] [] with stFlags := 0b0001 }
    s.resetIn = false ∧ (answered (step s)).isSome = true ∧
      flagIsSet .frameOversize s.stFlags = true := ⟨rfl, rfl, rfl⟩

theorem witness_FlagsTellTheTrace :
    let s := { idleWith session [0x02] [] with
      stFlags := 0b0001, trace := [.diag .frameOversize 3] }
    flagsTellTrace s ∧ (answered (step s)).isSome = true :=
  ⟨fun c => by cases c <;> rfl, rfl⟩

theorem witness_TraceOnlyGrows :
    (midFrame .press 1 Axes.zero [.ok]).resetIn = false ∧
      traceOf (step (midFrame .press 1 Axes.zero [.ok])) = some [.sink (.button true)] := by decide

theorem witness_FrameIgnoresEarlierRegisters :
    (Instr.frameRM 1 [⟨2, 3⟩]).wf = true ∧
      (answered (exec (.frameRM 1 [⟨2, 3⟩]) (idleWith session [] [.ok, .ok, .ok]))).isSome = true := by
  decide

/-- A written byte an unlisted offset would hold, and one it would not. -/
theorem witness_BufferWriteThenRead :
    Memory.wf [(0, 0x02), (7, 0xFF)] = true ∧ (0 : Nat) ≠ 7 ∧
    Memory.write [(0, 0x02), (7, 0xFF)] 7 0x00 = [(0, 0x02)] ∧
    Memory.write [(0, 0x02), (7, 0xFF)] 3 0x05 = [(0, 0x02), (3, 0x05), (7, 0xFF)] := by decide

/-- Contents that reach from the first offset to the last. -/
theorem witness_InvHoldsAfterReset : BufferOf session [(0, 0xAA), (7, 0x55)] :=
  ⟨by decide, by decide⟩

theorem witness_ExecutingFrameIsUndisturbed :
    executing (midFrame .replay 0 Axes.zero [.ok]) ∧
      (answered (step (midFrame .replay 0 Axes.zero [.ok]))).isSome = true :=
  ⟨⟨rfl, rfl, by decide⟩, rfl⟩

/-! The witnesses of the statements about decode and encode. -/

/-- One side with both ends of an `i8`, the other with flag bytes that are not canonical. -/
theorem witness_DecodeAndEncodeAgree :
    (Instr.frameRMC 2 [⟨-128, 127⟩, ⟨0, -1⟩]).wf = true ∧
    decode [0x01, 0x00, 0x02, 0xFF, 0x80, 0x7F] = .frame (.frameM 1 [⟨-128, 127⟩]) := by decide

/-- The header of B3.4 with its one pair. -/
theorem witness_DecodedFieldsAreTheBytes :
    ([0x80, 0x7F] : List Byte).length = 2 * le16 0x01 0x00 ∧
    ([0x80, 0x7F] : List Byte)[2 * 0]? = some 0x80 ∧
    ([0x80, 0x7F] : List Byte)[2 * 0 + 1]? = some 0x7F := by decide

/-- A payload for the header, and flag bytes for each of the four clauses: `FF` and `81` are not 1. -/
theorem witness_FlagBytesSelectTheKind :
    ([0x05, 0xFA] : List Byte).length = 2 * le16 0x01 0x00 ∧
    ((0xFF : Byte) ≠ 1 ∧ (0x81 : Byte) ≠ 1) ∧ ((1 : Byte) = 1 ∧ (0x00 : Byte) ≠ 1) ∧
    ((0x03 : Byte) ≠ 1 ∧ (1 : Byte) = 1) ∧ ((1 : Byte) = 1 ∧ (1 : Byte) = 1) := by decide

/-! The witnesses of the statements about PUSH, FEED and the stream. -/

theorem witness_FirstHeaderByteIsStored :
    let s := idleWith session [0x02] []
    readyForInput s ∧ s.input = .byte 0x02 :: [] ∧ s.rsPhase = .idle ∧ s.rsCount = 0 :=
  ⟨⟨rfl, rfl, rfl⟩, rfl, rfl, rfl⟩

/-- The greatest count that is kept: `MAX_POINTS = 2`. -/
theorem witness_SecondHeaderByteStartsCollecting :
    let s := { idleWith session [0x00] [] with rsCount := 1, rsBuf := [(0, 0x02)] }
    readyForInput s ∧ s.input = .byte 0x00 :: [] ∧ s.rsPhase = .idle ∧ s.rsCount = 1 ∧
      s.rsBuf.read 0 = 0x02 ∧
      (0x02 : Byte).toNat + 256 * (0x00 : Byte).toNat ≤ s.params.maxPoints.toNat :=
  ⟨⟨rfl, rfl, rfl⟩, rfl, rfl, rfl, rfl, by decide⟩

/-- The least count that is dropped. -/
theorem witness_OversizeHeaderIsSkippedAndReported :
    let s := { idleWith session [0x00] [] with rsCount := 1, rsBuf := [(0, 0x03)] }
    readyForInput s ∧ s.input = .byte 0x00 :: [] ∧ s.rsPhase = .idle ∧ s.rsCount = 1 ∧
      s.rsBuf.read 0 = 0x03 ∧
      s.params.maxPoints.toNat < (0x03 : Byte).toNat + 256 * (0x00 : Byte).toNat :=
  ⟨⟨rfl, rfl, rfl⟩, rfl, rfl, rfl, rfl, by decide⟩

/-- The last byte but one of the longest frame kept. -/
theorem witness_CollectedByteIsStored :
    let s := collecting session [0x02, 0x00, 0x01, 0x00, 0x05, 0x05] 0xFA 8
    readyForInput s ∧ s.input = .byte 0xFA :: [] ∧ s.rsPhase = .collect ∧
      s.rsExpected = some 8 ∧ s.rsCount + 1 < 8 ∧ 8 ≤ s.params.bufCap :=
  ⟨⟨rfl, rfl, rfl⟩, rfl, rfl, rfl, by decide, by decide⟩

theorem witness_CompletingByteRunsTheFrame :
    let s := collecting session [0x02, 0x00, 0x01, 0x00, 0x05, 0x05, 0xFA] 0xFA 8
    readyForInput s ∧ s.input = .byte 0xFA :: [] ∧ s.rsPhase = .collect ∧
      s.rsExpected = some 8 ∧ s.rsCount + 1 = 8 ∧ 8 ≤ s.params.bufCap ∧
      memRead 0 s.rsCount s = some [0x02, 0x00, 0x01, 0x00, 0x05, 0x05, 0xFA] ∧
      decode ([0x02, 0x00, 0x01, 0x00, 0x05, 0x05, 0xFA] ++ [0xFA]) =
        .frame (.frameMC 2 [⟨5, 5⟩, ⟨-6, -6⟩]) :=
  ⟨⟨rfl, rfl, rfl⟩, rfl, rfl, rfl, rfl, by decide, rfl, by decide⟩

/-- A byte inside the skip, and the last one (B1.10, B1.11). -/
theorem witness_SkippedByteIsDiscarded :
    let s := { idleWith session [0xAA] [] with
      rsPhase := .skip, rsExpected := some 10, rsCount := 8 }
    let u := { s with rsCount := 9 }
    (readyForInput s ∧ s.input = .byte 0xAA :: [] ∧ s.rsPhase = .skip ∧ s.rsExpected = some 10 ∧
      s.rsCount + 1 < 10) ∧
    (readyForInput u ∧ u.input = .byte 0xAA :: [] ∧ u.rsPhase = .skip ∧ u.rsExpected = some 10 ∧
      u.rsCount + 1 = 10) :=
  ⟨⟨⟨rfl, rfl, rfl⟩, rfl, rfl, rfl, by decide⟩, ⟨rfl, rfl, rfl⟩, rfl, rfl, rfl, rfl⟩

theorem witness_TruncatedFramePends :
    let s := { collecting session [0x02, 0x00, 0x01] 0x00 8 with input := [] }
    readyForInput s ∧ s.input = [] := ⟨⟨rfl, rfl, rfl⟩, rfl⟩

theorem witness_StepAtInputIsPush :
    readyForInput (collecting session [0x02, 0x00, 0x01] 0x00 8) ∧
      (collecting session [0x02, 0x00, 0x01] 0x00 8).input = .byte 0x00 :: [] :=
  ⟨⟨rfl, rfl, rfl⟩, rfl⟩

/-- A `CLICK` and a pending byte; the last clause has a stream that ends in no skip. -/
theorem witness_StreamIsParsedIntoFrames :
    let bytes : List Byte := [0x00, 0x00, 0x01, 0x00, 0x02]
    let s := idleWith session [] [.ok, .ok, .fatal]
    atBoundary s ∧
    s.sinkAnswers =
      List.replicate (sinkCalls (streamEvents s.params bytes)) .ok ++ [.fatal] ∧
    (match feed bytes s with
      | .next fed => fed.state.rsPhase ≠ .skip ∧ 0 < fed.state.rsCount
      | .fault _ => False
      | .refused _ => False) :=
  ⟨⟨rfl, rfl, rfl, rfl, rfl⟩, by decide, by show RsPhase.idle ≠ .skip ∧ 0 < 1; decide⟩

/-! The witnesses of the statements about the Quantizer. -/

theorem witness_DecompMovesAreInRange :
    (⟨127, -127, 1, -127⟩ : Axes) ∈ decomp ⟨300, -130, 1, -127⟩ := by decide

/-- For axis `x = 300` a full step, the short step; for axis `y = -130` a zero after its last. -/
theorem witness_DecompAxisShape :
    ((decomp ⟨300, -130, 1, -127⟩)[1]? = some ⟨127, -3, 0, 0⟩ ∧ 1 < (300 : Int).natAbs / 127) ∧
    ((decomp ⟨300, -130, 1, -127⟩)[2]? = some ⟨46, 0, 0, 0⟩ ∧ 2 = (300 : Int).natAbs / 127 ∧
      (-130 : Int).natAbs / 127 < 2) := by decide

/-- Both signs, the remaining value at the target. -/
theorem witness_RemainingNeverOvershoots : between 300 300 ∧ between (-128) (-2147483648) := by
  simp [between]

/-! The witnesses of the statements about frames. -/

theorem witness_FrameMEmitsItsMoves :
    let s := idleWith session [] [.ok]
    halted s = false ∧ s.fxPhase = .idle ∧ [(⟨1, -1⟩ : Point)].length = 1 ∧
      s.sinkAnswers = List.replicate 1 .ok ++ [] := ⟨rfl, rfl, rfl, rfl⟩

theorem witness_FrameMCEmitsMovesThenClick :
    let s := idleWith session [] [.ok, .ok, .ok]
    halted s = false ∧ s.fxPhase = .idle ∧ [(⟨1, -1⟩ : Point)].length = 1 ∧
      s.sinkAnswers = List.replicate (1 + 2) .ok ++ [] := ⟨rfl, rfl, rfl, rfl⟩

theorem witness_FrameRMEmitsOriginThenMoves :
    let s := idleWith session [] [.ok, .ok, .ok]
    halted s = false ∧ s.fxPhase = .idle ∧ [(⟨2, 3⟩ : Point)].length = 1 ∧
      s.sinkAnswers =
        List.replicate ((decomp s.params.origin.axes).length + 1) .ok ++ [] :=
  ⟨rfl, rfl, rfl, by decide⟩

theorem witness_FrameRMCEmitsOriginMovesClick :
    let s := idleWith session [] [.ok, .ok, .ok, .ok, .ok]
    halted s = false ∧ s.fxPhase = .idle ∧ [(⟨10, 10⟩ : Point)].length = 1 ∧
      s.sinkAnswers =
        List.replicate ((decomp s.params.origin.axes).length + 1 + 2) .ok ++ [] :=
  ⟨rfl, rfl, rfl, by decide⟩

/-- A frame cut off by a `fatal` answer, and one without the reset flag. -/
theorem witness_FramesTouchOnlyTheExecutor :
    ((Instr.frameRMC 1 [⟨10, 10⟩]).wf = true ∧
      (answered (exec (.frameRMC 1 [⟨10, 10⟩]) (idleWith session [] [.ok, .fatal]))).isSome) ∧
    ((Instr.frameM 1 [⟨1, 1⟩]).wf = true ∧ (Instr.frameM 1 [⟨1, 1⟩]).frame.reset = false ∧
      (answered (exec (.frameM 1 [⟨1, 1⟩]) (idleWith session [] [.ok]))).isSome) := by decide

theorem witness_ExecutorRealisesExec :
    let i := Instr.frameRMC 1 [⟨10, 10⟩]
    let s := idleWith session [] [.ok, .ok, .ok, .ok, .ok]
    i.wf = true ∧ halted s = false ∧
      s.sinkAnswers =
        List.replicate (eventCount s.params.origin.axes i.frame) .ok ++ [] := by decide

theorem witness_EventCountIsTheNumberOfEvents :
    (Instr.frameRMC 1 [⟨10, 10⟩]).frame.wf = true := by decide

/-- Components at both ends of the range. -/
theorem witness_MovesAreInRangeWithoutMinus128 :
    (Instr.frameM 1 [⟨-127, 127⟩]).wf = true ∧
    (∀ p ∈ (Instr.frameM 1 [⟨-127, 127⟩]).frame.points, p.dx ≠ -128 ∧ p.dy ≠ -128) ∧
    (answered (exec (.frameM 1 [⟨-127, 127⟩]) (idleWith session [] [.ok]))).isSome = true := by decide

/-- Both clauses: nothing left, and a value left. -/
theorem witness_DecompStepClampsAndSubtracts :
    let s := midFrame .decomp 0 ⟨0, 0, 0, 0⟩ []
    let u := midFrame .decomp 0 ⟨128, 0, 0, 0⟩ [.ok]
    (executing s ∧ s.fxPhase = .decomp ∧ s.rem = ⟨0, 0, 0, 0⟩) ∧
    (executing u ∧ u.fxPhase = .decomp ∧ u.rem ≠ ⟨0, 0, 0, 0⟩ ∧ u.sinkAnswers = .ok :: []) :=
  ⟨⟨⟨rfl, rfl, by decide⟩, rfl, rfl⟩, ⟨rfl, rfl, by decide⟩, rfl, by decide, rfl⟩

/-- Both clauses: after the last pair, and at it. -/
theorem witness_ReplayStepEmitsTheBufferedPair :
    let s := midFrame .replay 1 Axes.zero []
    let u := midFrame .replay 0 Axes.zero [.ok]
    (Inv s ∧ executing s ∧ s.fxPhase = .replay ∧ s.fxIdx = s.fxPointCount) ∧
    (Inv u ∧ executing u ∧ u.fxPhase = .replay ∧ u.fxIdx ≠ u.fxPointCount ∧
      memRead (4 + 2 * u.fxIdx) 2 u = some [0x0A, 0x0A] ∧ u.sinkAnswers = .ok :: []) :=
  ⟨⟨midFrame_inv _ _ _ _ (by decide) (by simp) (by simp), ⟨rfl, rfl, by decide⟩, rfl, rfl⟩,
    midFrame_inv _ _ _ _ (by decide) (by simp) (by simp), ⟨rfl, rfl, by decide⟩, rfl, by decide,
    rfl, rfl⟩

/-- Both clauses. -/
theorem witness_PressThenRelease :
    let s := midFrame .press 1 Axes.zero [.ok]
    let u := midFrame .release 1 Axes.zero [.ok]
    (executing s ∧ s.sinkAnswers = .ok :: [] ∧ s.fxPhase = .press) ∧
    (executing u ∧ u.sinkAnswers = .ok :: [] ∧ u.fxPhase = .release) :=
  ⟨⟨⟨rfl, rfl, by decide⟩, rfl, rfl⟩, ⟨rfl, rfl, by decide⟩, rfl, rfl⟩

/-- A press that is open, its release next. -/
theorem witness_ButtonsComeInPairs :
    let s := { midFrame .release 1 Axes.zero [.ok] with trace := [.sink (.button true)] }
    buttonsPaired s ∧ (answered (step s)).isSome = true := ⟨rfl, rfl⟩

theorem witness_MovesFitTheReport :
    let s := midFrame .replay 0 Axes.zero [.ok]
    Inv s ∧ movesFit s.trace ∧ (answered (step s)).isSome = true :=
  ⟨midFrame_inv _ _ _ _ (by decide) (by simp) (by simp),
    by simp [movesFit, midFrame, idleWith, State.resetWith], rfl⟩

theorem witness_EveryFrameRunsOrWaits :
    let s := idleWith session [] [.ok]
    (Instr.frameRM 1 [⟨2, 3⟩]).wf = true ∧ halted s = false ∧ s.fxPhase = .idle ∧
      SinkAnswer.fatal ∉ s.sinkAnswers := by decide

/-! The witnesses of the statements about faults, halt and the environment. -/

/-- The first event and the last draw `fatal`. -/
theorem witness_FatalAnswerHaltsMidFrame :
    let i := Instr.frameMC 1 [⟨1, 1⟩]
    let s := idleWith session [] [.fatal]
    let u := idleWith session [] [.ok, .ok, .fatal]
    i.wf = true ∧
    (halted s = false ∧ s.fxPhase = .idle ∧ 0 < eventCount s.params.origin.axes i.frame ∧
      s.sinkAnswers = List.replicate 0 .ok ++ .fatal :: []) ∧
    (halted u = false ∧ u.fxPhase = .idle ∧ 2 < eventCount u.params.origin.axes i.frame ∧
      u.sinkAnswers = List.replicate 2 .ok ++ .fatal :: []) := by decide

theorem witness_FatalAnswerKeepsTheStepsUpdates :
    let s := midFrame .press 1 Axes.zero [.fatal]
    executing s ∧ s.sinkAnswers = .fatal :: [] ∧
      (answered (step { s with sinkAnswers := [.ok] })).map (·.sinkAnswers) = some [] :=
  ⟨⟨rfl, rfl, by decide⟩, rfl, rfl⟩

theorem witness_LateAnswersChangeNothing :
    (Instr.frameMC 1 [⟨1, 1⟩]).wf = true ∧
      (answered (exec (.frameMC 1 [⟨1, 1⟩])
        { idleWith session [] [] with sinkAnswers := [.ok] })).isSome = true := by decide

theorem witness_TransportFatalHalts :
    let s := { collecting session [0x02, 0x00, 0x01] 0x00 8 with input := [.fatal] }
    readyForInput s ∧ s.input = .fatal :: [] := ⟨⟨rfl, rfl, rfl⟩, rfl⟩

theorem witness_HaltedStopsEverything :
    halted haltedState = true ∧ haltedState.resetIn = false := by decide

/-- A buffer too short for its count, one too long, and one without a count (B3.7, B3.9, B3.10). -/
theorem witness_InconsistentBufferIsRejected :
    (halted (idleWith session [] []) = false ∧ (idleWith session [] []).fxPhase = .idle) ∧
    ([] : List Byte).length < 2 ∧
    ([0x02, 0x00, 0x01, 0x00, 0x05, 0x05, 0xFA] : List Byte).length ≠
      frameLength (declaredCount [0x02, 0x00, 0x01, 0x00, 0x05, 0x05, 0xFA]) ∧
    ([0x00, 0x00, 0x00, 0x00, 0x00] : List Byte).length ≠
      frameLength (declaredCount [0x00, 0x00, 0x00, 0x00, 0x00]) := by decide

theorem witness_DecodeFaultIsUnreachable :
    Inv (collecting session [0x02, 0x00, 0x01] 0x00 8) ∧
      (answered (step (collecting session [0x02, 0x00, 0x01] 0x00 8))).isSome = true :=
  ⟨collecting_inv, rfl⟩

/-- Each of the two ways in, and the way out. -/
theorem witness_HaltComesFromCollaborators :
    let s := midFrame .press 1 Axes.zero [.fatal]
    let u := { idleWith session [] [] with input := [.fatal] }
    (s.resetIn = false ∧ (answered (step s)).map halted = some true) ∧
    (u.resetIn = false ∧ (answered (step u)).map halted = some true) ∧
    (halted { haltedState with resetIn := true } = true ∧
      (answered (step { haltedState with resetIn := true })).isSome = true) := by decide

theorem witness_MiscountedTermIsRejected :
    let i := Instr.frameM 2 [⟨1, 1⟩]
    let s := idleWith session [] []
    halted s = false ∧ s.fxPhase = .idle ∧ i.frame.points.length ≠ i.frame.pointCount := by decide

theorem witness_OverlappingHandoffIsRefused :
    let s := midFrame .replay 0 Axes.zero []
    halted s = false ∧ s.fxPhase ≠ .idle := by decide

theorem witness_PlacedFrameRunsNext :
    halted State.reset = false ∧ decodeTableWord 32 0x01010000 = some Instr.homeClick ∧
      Instr.homeClick.frame.pointCount ≤ State.reset.params.maxPoints.toNat := by decide

/-- One event that is due in each stage. -/
theorem witness_ExecutorWaitsForTheSink :
    (Inv (midFrame .decomp 0 ⟨128, 0, 0, 0⟩ []) ∧ executing (midFrame .decomp 0 ⟨128, 0, 0, 0⟩ []) ∧
      eventDue (midFrame .decomp 0 ⟨128, 0, 0, 0⟩ [])) ∧
    (Inv (midFrame .replay 0 Axes.zero []) ∧ executing (midFrame .replay 0 Axes.zero []) ∧
      eventDue (midFrame .replay 0 Axes.zero [])) ∧
    (Inv (midFrame .press 1 Axes.zero []) ∧ executing (midFrame .press 1 Axes.zero []) ∧
      eventDue (midFrame .press 1 Axes.zero [])) ∧
    (Inv (midFrame .release 1 Axes.zero []) ∧ executing (midFrame .release 1 Axes.zero []) ∧
      eventDue (midFrame .release 1 Axes.zero [])) ∧
    (midFrame .release 1 Axes.zero []).sinkAnswers = [] := by
  refine ⟨⟨midFrame_inv _ _ _ _ ?_ ?_ ?_, ⟨rfl, rfl, ?_⟩, ?_⟩, ⟨midFrame_inv _ _ _ _ ?_ ?_ ?_,
    ⟨rfl, rfl, ?_⟩, ?_⟩, ⟨midFrame_inv _ _ _ _ ?_ ?_ ?_, ⟨rfl, rfl, ?_⟩, ?_⟩,
    ⟨midFrame_inv _ _ _ _ ?_ ?_ ?_, ⟨rfl, rfl, ?_⟩, ?_⟩, rfl⟩ <;>
    simp [axesBetween, between, midFrame, eventDue, Axes.zero]

/-- A frame in hand whose next step is taken, and one that waits for the sink. -/
theorem witness_FeedFinishesTheFrameFirst :
    let s := midFrame .replay 0 Axes.zero [.ok]
    let u := midFrame .replay 0 Axes.zero []
    (executing s ∧ (answered (step s)).isSome = true) ∧
    (executing u ∧ Inv u ∧ eventDue u ∧ u.sinkAnswers = []) :=
  ⟨⟨⟨rfl, rfl, by decide⟩, rfl⟩, ⟨rfl, rfl, by decide⟩,
    midFrame_inv _ _ _ _ (by decide) (by simp) (by simp), by simp [eventDue, midFrame], rfl⟩

/-- Right after reset, where any two buffers will do; in a frame, whose last byte now comes; in a skip. -/
theorem witness_StaleBytesAreNeverObserved :
    let s := idleWith session [0x02] []
    let u := { idleWith session [0x00] [.ok, .ok] with
      rsPhase := .collect, rsExpected := some 4, rsCount := 3, rsBuf := [(2, 0x01), (5, 0x99)] }
    let v := { idleWith session [0xAA] [] with
      rsPhase := .skip, rsExpected := some 10, rsCount := 2, rsBuf := [(0, 0x03)] }
    (sameFrameBytes s [(0, 0xAA), (7, 0x55)] ∧ (answered (step s)).isSome = true) ∧
    (sameFrameBytes u [(2, 0x01), (3, 0x77)] ∧ (answered (step u)).isSome = true) ∧
    (sameFrameBytes v [(0, 0x44)] ∧ (answered (step v)).isSome = true) :=
  ⟨⟨fun _ => by decide, rfl⟩, ⟨fun _ => by decide, rfl⟩, fun h => absurd rfl h, rfl⟩

end Sys2Proof.Tests
end

section
/-! The statements of 10_state.md: reset values (R22), the constant configuration (R17), and the executor
registers no rule reads before they are written (R23). -/

namespace Sys2Proof.Machine

/-! ### The configuration -/

theorem exec_params {i : Instr} {s t : State} (h : exec i s = .next t) : t.params = s.params := by
  rw [exec_eq] at h
  obtain ⟨-, -, ⟨-, hrun⟩ | ⟨-, rfl⟩⟩ := execFrame_next h
  · exact (runFx_frame hrun).params
  · exact raiseFault_params _ _ _

theorem handoff_params {frame : List Byte} {s t : State} (h : handoff frame s = .next t) :
    t.params = s.params := by
  obtain ⟨-, -, ⟨i, -, hi⟩ | ⟨why, -, rfl⟩⟩ := handoff_next h
  · exact exec_params hi
  · exact raiseFault_params _ _ _

theorem Pushed.params {b : Byte} {s t : State} {out : Option (List Byte)} (h : Pushed b s t out) :
    t.params = s.params := by
  obtain ⟨hparams, -⟩ := h.frame
  exact hparams

/-- Settles O6, by the operations a step can be. -/
theorem stepKeepsConfiguration : Obligations.StepKeepsConfiguration := by
  intro s t h
  cases stepped_of_step h with
  | reset => rfl
  | noInput | sinkSilent => rfl
  | transportFatal => exact raiseFault_params _ _ _
  | pushed b later _ _ _ hpu => exact hpu.params
  | ran b later v _ frame _ _ hpu hho => exact (handoff_params hho).trans hpu.params
  | continued _ _ hfx => exact (fxStep_frame hfx).params

/-! ### What an earlier frame left in the executor's registers

The start of a frame overwrites every register but `rem_*`, and that one too where the frame resets. So all
that has to be shown is that outside `FX_DECOMP` the executor neither reads `rem_*` nor enters `FX_DECOMP`. -/

/-- An executor step's result with other values in `rem_*`. -/
def FxStep.withRem (m : Axes) : FxStep → FxStep
  | .took t  => .took { t with rem := m }
  | .waits   => .waits
  | .stops r => .stops r

theorem emitSink_withRem (e : SinkEvent) (s : State) (m : Axes) :
    emitSink e { s with rem := m } = (emitSink e s).withRem m := by
  rcases hs : s.sinkAnswers with _ | ⟨_ | _, later⟩
  · simp [emitSink, hs, FxStep.withRem]
  · simp [emitSink, hs, FxStep.withRem]
  · simp [emitSink, hs, FxStep.withRem, raiseFault]

theorem SilentStep.withRem {s t : State} (h : SilentStep s t) (hp : s.fxPhase ≠ .decomp) (m : Axes) :
    SilentStep { s with rem := m } { t with rem := m } := by
  cases h with
  | decompEnds hd _ => exact absurd hd hp
  | replayEnds hr hi => exact .replayEnds hr hi

theorem DueEvent.withRem {s u : State} {e : SinkEvent} (h : DueEvent s e u)
    (hp : s.fxPhase ≠ .decomp) (m : Axes) :
    DueEvent { s with rem := m } e { u with rem := m } := by
  cases h with
  | decomp hd _ => exact absurd hd hp
  | replay p hr hi hpt => exact .replay p hr hi hpt
  | press hr => exact .press hr
  | release hr => exact .release hr

theorem fxStep_pointMissing {s : State} (hh : halted s = false) (hp : s.fxPhase = .replay)
    (hi : s.fxIdx ≠ s.fxPointCount) (hpt : s.fxPoints[s.fxIdx]? = none) :
    fxStep s = .stops .pointMissing := by
  simp [fxStep, hh, hp, stepReplay, hi, hpt]

/-- Outside `FX_DECOMP` an executor step neither reads nor writes `rem_*`. -/
theorem fxStep_withRem {s : State} (hp : s.fxPhase ≠ .decomp) (m : Axes) :
    fxStep { s with rem := m } = (fxStep s).withRem m := by
  rcases fxStep_cases s with (hh | hi) | ⟨hh, t, ht⟩ | ⟨hh, e, u, hu⟩ | ⟨hh, hr, hi, hpt, hs⟩
  · rw [fxStep_halted hh, fxStep_halted (s := { s with rem := m }) hh]; rfl
  · rw [fxStep_idle hi, fxStep_idle (s := { s with rem := m }) hi]; rfl
  · rw [fxStep_silent hh ht, fxStep_silent (s := { s with rem := m }) hh (ht.withRem hp m)]; rfl
  · rw [fxStep_due hh hu, fxStep_due (s := { s with rem := m }) hh (hu.withRem hp m)]
    exact emitSink_withRem e u m
  · rw [hs, fxStep_pointMissing (s := { s with rem := m }) hh hr hi hpt]; rfl

/-- No executor step enters `FX_DECOMP`. -/
theorem fxStep_ne_decomp {s t : State} (hp : s.fxPhase ≠ .decomp) (h : fxStep s = .took t) :
    t.fxPhase ≠ .decomp := by
  obtain ⟨-, hs | ⟨e, u, hu, he⟩⟩ := fxStep_took h
  · cases hs with
    | decompEnds hd _ => exact absurd hd hp
    | replayEnds => cases s.fxClick <;> simp
  · have hup : u.fxPhase ≠ .decomp := by cases hu <;> simp_all
    obtain ⟨later, ⟨-, rfl⟩ | ⟨-, rfl⟩⟩ := emitSink_took he <;> simpa using hup

theorem runFx_withRem {n : Nat} {s t : State} (hp : s.fxPhase ≠ .decomp) (m : Axes)
    (h : runFx n s = .next t) : runFx n { s with rem := m } = .next { t with rem := m } := by
  induction n generalizing s with
  | zero => cases h; rfl
  | succ n ih =>
    have hstep := fxStep_withRem hp m
    cases hs : fxStep s with
    | took u =>
      rw [hs] at hstep
      rw [runFx_succ_took hs] at h
      rw [runFx_succ_took hstep]
      exact ih (fxStep_ne_decomp hp hs) h
    | waits =>
      rw [hs] at hstep
      rw [runFx_of_waits hs] at h
      cases h
      exact runFx_of_waits hstep _
    | stops r => simp [runFx, hs] at h

theorem stepsLeft_withRem {s : State} (hp : s.fxPhase ≠ .decomp) (m : Axes) :
    stepsLeft { s with rem := m } = stepsLeft s := by
  cases hph : s.fxPhase <;> simp_all [stepsLeft]

/-- The fuel of a run counts `rem_*`, but outside `FX_DECOMP` the run does not need that part. -/
theorem runToIdle_withRem {s t : State} (hp : s.fxPhase ≠ .decomp) (m : Axes)
    (h : runToIdle s = .next t) : runToIdle { s with rem := m } = .next { t with rem := m } := by
  have hleft : stepsLeft { s with rem := m } ≤ fxFuel s :=
    stepsLeft_withRem hp m ▸ stepsLeft_le_fxFuel s
  rw [← runFx_withRem hp m h]
  exact runFx_fuel _ _ _ (stepsLeft_le_fxFuel _) hleft

/-- The start of a frame overwrites every executor register, `rem_*` only where the frame resets
(43_frame_execution.md R127, R128). -/
theorem startFrame_registers (f : Frame) (s : State) (n idx : Nat) (c r : Bool) (ps : List Point)
    (m : Axes) :
    startFrame f { s with fxPointCount := n, fxClick := c, fxReset := r, fxIdx := idx,
                          fxPoints := ps, rem := m } =
      { startFrame f s with rem := if f.reset then s.params.origin.axes else m } := rfl

/-- Settles O10: the run of the frame starts in the same state, or in one that differs in `rem_*` only
and is past `FX_DECOMP`. -/
theorem frameIgnoresEarlierRegisters : Obligations.FrameIgnoresEarlierRegisters := by
  intro i s t n idx c r ps m hwf h
  rw [exec_eq] at h
  obtain ⟨-, hcount, -⟩ := (Frame.wf_iff _).1 hwf
  obtain ⟨hh, hp, ⟨-, hrun⟩ | ⟨hne, -⟩⟩ := execFrame_next h
  · rw [exec_eq, execFrame_runs (by exact hh) (by exact hp) hcount, startFrame_registers]
    cases hr : i.frame.reset with
    | true =>
      have hsame : { startFrame i.frame s with rem := s.params.origin.axes } =
          startFrame i.frame s := by simp [startFrame, hr]
      exact ⟨t, hsame ▸ hrun, rfl, rfl, rfl, rfl, rfl⟩
    | false =>
      have hreplay : (startFrame i.frame s).fxPhase ≠ .decomp := by simp [hr]
      exact ⟨{ t with rem := m }, runToIdle_withRem hreplay m hrun, rfl, rfl, rfl, rfl, rfl⟩
  · exact absurd hcount hne

/-! ### Reset -/

/-- Settles O1: each value is the one `State.resetWith` writes (R22), and no flag is set to halt. -/
theorem resetLeavesIdle : Obligations.ResetLeavesIdle :=
  fun p contents =>
    ⟨rfl, rfl, rfl, rfl, rfl, rfl, halted_resetWith p contents, rfl, rfl⟩

end Sys2Proof.Machine
end

section
/-! The statements of 40_reassembler.md: each case of PUSH as a step of the machine (R71 to R75), and FEED over
chunks (R78, R80). -/

namespace Sys2Proof.Machine

/-! ### PUSH at IN -/

/-- The buffer has room for a frame's fixed part, whatever `MAX_POINTS` is (00_scope.md R6). -/
theorem four_le_bufCap (p : Params) : 4 ≤ p.bufCap := Nat.le_add_right _ _

/-- Settles O18: the step is the first case of PUSH. -/
theorem firstHeaderByteIsStored : Obligations.FirstHeaderByteIsStored := by
  intro s b later hready hin hp hc
  have hcap := four_le_bufCap s.params
  exact step_pushed hready hin (.first hp hc (show 0 < s.params.bufCap by omega))

/-- Settles O19: the step is PUSH's case of a header with a count that is kept. -/
theorem secondHeaderByteStartsCollecting : Obligations.SecondHeaderByteStartsCollecting := by
  rintro s b _ later hready hin hp hc rfl hle
  have hcap := four_le_bufCap s.params
  exact step_pushed hready hin (.header hp hc (show 1 < s.params.bufCap by omega) hle)

/-- Settles O20: the step is PUSH's case of a header with a count that is not kept. -/
theorem oversizeHeaderIsSkippedAndReported : Obligations.OversizeHeaderIsSkippedAndReported := by
  rintro s b _ later hready hin hp hc rfl hgt
  have hcap := four_le_bufCap s.params
  exact step_pushed hready hin (.oversize hp hc (show 1 < s.params.bufCap by omega) hgt)

/-- Settles O23: the step is one of PUSH's two cases in a skip, by whether the dropped frame ends. -/
theorem skippedByteIsDiscarded : Obligations.SkippedByteIsDiscarded := by
  intro s b later len hready hin hp he
  constructor
  · intro hlt
    exact step_pushed hready hin (.skipped len hp he hlt)
  · intro hlast
    exact step_pushed hready hin (.skipEnds len hp he hlast.ge)

/-! ### FEED over chunks

FEED of a list of bytes is FEED of its first byte, then of the others (`feed_cons`). Chunks follow one another
in the same way (`feedAll_cons`), and that way is associative, so it does not matter where the cuts are. -/

/-- What two FEEDs, one after the other, leave (40_reassembler.md R80): the second one's state, and both
ones' frames and unconsumed bytes in order. -/
def Fed.followedBy (one two : Fed) : Fed :=
  ⟨two.state, one.frames ++ two.frames, one.unconsumed ++ two.unconsumed⟩

/-- A FEED's outcome followed by another FEED, from the state the first one leaves; a stop of either is the
stop of both. -/
def thenFeed (first : Host.Outcome Fed Fault Refusal)
    (second : State → Host.Outcome Fed Fault Refusal) : Host.Outcome Fed Fault Refusal :=
  match first with
  | .next one =>
    match second one.state with
    | .next two  => .next (one.followedBy two)
    | .fault r   => .fault r
    | .refused r => .refused r
  | .fault r   => .fault r
  | .refused r => .refused r

@[simp] theorem thenFeed_fault (r : Fault) (second : State → Host.Outcome Fed Fault Refusal) :
    thenFeed (.fault r) second = .fault r := rfl

@[simp] theorem thenFeed_refused (r : Refusal) (second : State → Host.Outcome Fed Fault Refusal) :
    thenFeed (.refused r) second = .refused r := rfl

/-- A FEED that hands off nothing and gives nothing back adds nothing to the next one's result. -/
@[simp] theorem thenFeed_consumed (s : State) (second : State → Host.Outcome Fed Fault Refusal) :
    thenFeed (.next ⟨s, [], []⟩) second = second s := by
  cases h : second s <;> simp [thenFeed, Fed.followedBy, h]

@[simp] theorem Fed.state_followedBy (one two : Fed) : (one.followedBy two).state = two.state := rfl

theorem Fed.followedBy_assoc (one two three : Fed) :
    (one.followedBy two).followedBy three = one.followedBy (two.followedBy three) := by
  simp [Fed.followedBy]

theorem thenFeed_assoc (first : Host.Outcome Fed Fault Refusal)
    (second third : State → Host.Outcome Fed Fault Refusal) :
    thenFeed (thenFeed first second) third =
      thenFeed first fun s => thenFeed (second s) third := by
  cases first with
  | fault r | refused r => rfl
  | next one =>
    cases h2 : second one.state with
    | fault r | refused r => simp [thenFeed, h2]
    | next two =>
      cases h3 : third two.state <;> simp [thenFeed, h2, h3, Fed.followedBy_assoc]

theorem feedAll_cons (chunk : List Byte) (chunks : List (List Byte)) (s : State) :
    feedAll (chunk :: chunks) s = thenFeed (feed chunk s) (feedAll chunks) := by
  cases h1 : feed chunk s with
  | fault r | refused r => simp [feedAll, h1]
  | next one =>
    cases h2 : feedAll chunks one.state <;> simp [feedAll, thenFeed, Fed.followedBy, h1, h2]

/-- FEED takes its bytes one by one (40_reassembler.md R77); a byte that is given back leaves a state in which
the others are given back too. -/
theorem feed_cons (b : Byte) (bs : List Byte) (s : State) :
    feed (b :: bs) s = thenFeed (feed [b] s) (feed bs) := by
  cases hrun : runToIdle s with
  | fault r | refused r => simp [feed, hrun]
  | next w =>
    cases hen : pushEnabled w with
    | false =>
      have hback := feed_given_back (chunk := bs) (waits_of_runToIdle hrun) hen
      simp [feed, hrun, hen, thenFeed, Fed.followedBy, hback]
    | true =>
      cases hre : reassemble b w with
      | fault r | refused r => simp [feed, hrun, hen, hre]
      | next out =>
        obtain ⟨t, _ | frame⟩ := out
        · simp [feed, hrun, hen, hre]
        · cases hho : handoff frame t with
          | fault r | refused r => simp [feed, hrun, hen, hre, hho]
          | next u =>
            cases hrest : feed bs u <;>
              simp [feed, hrun, hen, hre, hho, thenFeed, Fed.followedBy, hrest]

/-- FEED of two chunks put together is FEED of the one, then of the other (40_reassembler.md R80). -/
theorem feed_append (bs cs : List Byte) (s : State) :
    feed (bs ++ cs) s = thenFeed (feed bs s) (feed cs) := by
  induction bs generalizing s with
  | nil => exact (thenFeed_consumed s _).symm
  | cons b bs ih =>
    calc feed (b :: (bs ++ cs)) s
        = thenFeed (feed [b] s) (feed (bs ++ cs)) := feed_cons b _ s
      _ = thenFeed (feed [b] s) fun t => thenFeed (feed bs t) (feed cs) := by rw [funext ih]
      _ = thenFeed (thenFeed (feed [b] s) (feed bs)) (feed cs) := (thenFeed_assoc _ _ _).symm
      _ = thenFeed (feed (b :: bs) s) (feed cs) := by rw [← feed_cons]

theorem feedAll_eq_feed_flatten (chunks : List (List Byte)) (s : State) :
    feedAll chunks s = feed chunks.flatten s := by
  induction chunks generalizing s with
  | nil => rfl
  | cons chunk chunks ih => rw [feedAll_cons, List.flatten_cons, feed_append, funext ih]

/-- Settles O25, by induction on the chunks, each put before the others' concatenation. -/
theorem chunkBoundariesDoNotMatter : Obligations.ChunkBoundariesDoNotMatter :=
  ⟨fun _ => rfl, feedAll_eq_feed_flatten⟩

end Sys2Proof.Machine
end

section
/-! The statements of 41_decoder.md: decode and encode agree (R97), the fields of a decoded frame (R92 to R94),
and that DECODE never rejects inside the block (R98). -/

namespace Sys2Proof

/-! ### The round trip -/

/-- The low byte of a `u16` put together from two bytes (30_encoding.md R53). -/
theorem ofNat_le16_mod (b0 b1 : Byte) : BitVec.ofNat 8 (le16 b0 b1 % 256) = b0 := by
  apply BitVec.eq_of_toNat_eq
  simp only [le16, BitVec.toNat_ofNat]; omega

/-- The high byte of a `u16` put together from two bytes (30_encoding.md R53). -/
theorem ofNat_le16_div (b0 b1 : Byte) : BitVec.ofNat 8 (le16 b0 b1 / 256) = b1 := by
  apply BitVec.eq_of_toNat_eq
  simp only [le16, BitVec.toNat_ofNat]; omega

/-- DECODE of an encoded frame is the frame: each field is read back from its own bytes
(41_decoder.md R97). -/
theorem decode_encodeFrame {f : Frame} (h : f.wf = true) :
    decode (encodeFrame f) = .frame f.instr := by
  obtain ⟨hcount, hlen, hpoints⟩ := (Frame.wf_iff f).1 h
  have hpayload : (encodePoints f.points).length =
      2 * le16 (BitVec.ofNat 8 (f.pointCount % 256)) (BitVec.ofNat 8 (f.pointCount / 256)) := by
    rw [length_encodePoints, le16_encode hcount, hlen]
  rw [encodeFrame, decode_of_length _ _ _ _ _ hpayload, le16_encode hcount, flagByte_encodeFlag,
    flagByte_encodeFlag, decodePoints_encodePoints _ hpoints]

theorem decode_encode {i : Instr} (h : i.wf = true) : decode (encode i) = .frame i := by
  rw [encode, decode_encodeFrame h, Instr.instr_frame]

/-- The encoding of a decoded buffer is the buffer up to its flag bytes: each other byte is determined by
the field read from it (41_decoder.md R97). -/
theorem encode_of_decode {buf : List Byte} {i : Instr} (h : decode buf = .frame i) :
    encode i = canonicalFlags buf := by
  obtain ⟨b0, b1, b2, b3, payload, rfl, hlen, hf⟩ := decode_frame h
  rw [encode, hf, encodeFrame, ofNat_le16_mod, ofNat_le16_div, encodePoints_decodePoints _ _ hlen,
    canonicalFlags]

/-- Settles O13: the round trip of an instruction, and that of a buffer. -/
theorem decodeAndEncodeAgree : Obligations.DecodeAndEncodeAgree :=
  ⟨fun _ => decode_encode, fun _ _ h => ⟨wf_of_decode h, encode_of_decode h⟩⟩

/-! ### The fields -/

/-- Settles O15: a payload of the declared length decodes, and each field is read from its bytes. -/
theorem decodedFieldsAreTheBytes : Obligations.DecodedFieldsAreTheBytes := by
  intro b0 b1 b2 b3 payload hlen
  refine ⟨_, decode_of_length b0 b1 b2 b3 payload hlen, ?_⟩
  rw [Frame.frame_instr]
  exact ⟨rfl, flagByte_eq_true b2, flagByte_eq_true b3, length_decodePoints _ payload hlen,
    getElem?_decodePoints payload⟩

end Sys2Proof

namespace Sys2Proof.Machine

/-! ### Inside the block

An executor step appends a SINK event and at most `SINK_FATAL`, a PUSH at most `FRAME_OVERSIZE`, the transport's
signal `TRANSPORT_FATAL`. That leaves the handoff, and there the invariant gives a frame that decodes. -/

/-- The trace has grown at its end, by events none of which is `DECODE_INCONSISTENT`. -/
def GrowsWithoutDecodeFault (s t : State) : Prop :=
  ∃ new, t.trace = s.trace ++ new ∧ ∀ n, Event.diag .decodeInconsistent n ∉ new

theorem GrowsWithoutDecodeFault.of_trace_eq {s t : State} (h : t.trace = s.trace) :
    GrowsWithoutDecodeFault s t :=
  ⟨[], by rw [h, List.append_nil], fun _ => List.not_mem_nil⟩

theorem GrowsWithoutDecodeFault.trans {s t u : State} (h : GrowsWithoutDecodeFault s t)
    (k : GrowsWithoutDecodeFault t u) : GrowsWithoutDecodeFault s u := by
  obtain ⟨es, hs, hes⟩ := h
  obtain ⟨fs, ht, hfs⟩ := k
  refine ⟨es ++ fs, by rw [ht, hs, List.append_assoc], fun n hn => ?_⟩
  exact (List.mem_append.1 hn).elim (hes n) (hfs n)

theorem growsWithoutDecodeFault_raiseFault {c : Cause} (hc : c ≠ .decodeInconsistent) (n : Nat)
    (s : State) : GrowsWithoutDecodeFault s (raiseFault c n s) :=
  ⟨[.diag c n], raiseFault_trace c n s, by simp [hc.symm]⟩

theorem growsWithoutDecodeFault_of_emitSink {e : SinkEvent} {s t : State}
    (h : emitSink e s = .took t) : GrowsWithoutDecodeFault s t := by
  have called (later : List SinkAnswer) :
      GrowsWithoutDecodeFault s { s with trace := s.trace ++ [.sink e], sinkAnswers := later } :=
    ⟨[.sink e], rfl, by simp⟩
  obtain ⟨later, ⟨-, rfl⟩ | ⟨-, rfl⟩⟩ := emitSink_took h
  · exact called later
  · exact (called later).trans (growsWithoutDecodeFault_raiseFault (by decide) _ _)

theorem growsWithoutDecodeFault_of_fxStep {s t : State} (h : fxStep s = .took t) :
    GrowsWithoutDecodeFault s t := by
  obtain ⟨-, hs | ⟨e, u, hu, he⟩⟩ := fxStep_took h
  · cases hs <;> exact .of_trace_eq rfl
  · have hut : u.trace = s.trace := by cases hu <;> rfl
    exact (GrowsWithoutDecodeFault.of_trace_eq hut).trans (growsWithoutDecodeFault_of_emitSink he)

theorem growsWithoutDecodeFault_of_runFx {n : Nat} {s t : State} (h : runFx n s = .next t) :
    GrowsWithoutDecodeFault s t :=
  runFx_invariant (P := GrowsWithoutDecodeFault s)
    (fun _ _ hu hv => hu.trans (growsWithoutDecodeFault_of_fxStep hv)) (.of_trace_eq rfl) h

/-- A well-formed frame has as many pairs as it counts, so its execution is its run. -/
theorem growsWithoutDecodeFault_of_exec {i : Instr} {s t : State} (hwf : i.wf = true)
    (h : exec i s = .next t) : GrowsWithoutDecodeFault s t := by
  obtain ⟨-, hcount, -⟩ := (Frame.wf_iff _).1 hwf
  rw [exec_eq] at h
  obtain ⟨-, -, ⟨-, hrun⟩ | ⟨hne, -⟩⟩ := execFrame_next h
  · exact (GrowsWithoutDecodeFault.of_trace_eq (startFrame_trace i.frame s)).trans
      (growsWithoutDecodeFault_of_runFx hrun)
  · exact absurd hcount hne

theorem growsWithoutDecodeFault_of_handoff {frame : List Byte} {i : Instr} {s t : State}
    (hd : decode frame = .frame i) (h : handoff frame s = .next t) :
    GrowsWithoutDecodeFault s t := by
  obtain ⟨-, -, ⟨j, hj, hexec⟩ | ⟨why, hreject, -⟩⟩ := handoff_next h
  · exact growsWithoutDecodeFault_of_exec (wf_of_decode hj) hexec
  · simp [hd] at hreject

theorem Pushed.growsWithoutDecodeFault {b : Byte} {s t : State} {out : Option (List Byte)}
    (h : Pushed b s t out) : GrowsWithoutDecodeFault s t := by
  cases h with
  | oversize =>
    exact (GrowsWithoutDecodeFault.of_trace_eq rfl).trans
      (growsWithoutDecodeFault_raiseFault (by decide) _ _)
  | first | header | stored | completed | skipped | skipEnds => exact .of_trace_eq rfl

/-- The invariant does not speak of what waits at IN. -/
theorem Inv.withInput {s : State} (h : Inv s) (later : List InItem) :
    Inv { s with input := later } :=
  ⟨h.buffer, h.atReset, { h.reassembler with }, { h.executor with }⟩

/-- Settles O52, by the operations a step can be: only a handoff of a buffer DECODE rejects could raise the
fault, and from a state with the invariant the frame a PUSH completes decodes. -/
theorem decodeFaultIsUnreachable : Obligations.DecodeFaultIsUnreachable := by
  intro s t hi h
  cases stepped_of_step h with
  | reset hr => exact .inr hr
  | noInput | sinkSilent => exact .inl (GrowsWithoutDecodeFault.of_trace_eq rfl)
  | transportFatal later => exact .inl (growsWithoutDecodeFault_raiseFault (by decide) 0 _)
  | pushed b later _ _ _ hpu => exact .inl hpu.growsWithoutDecodeFault
  | ran b later v _ frame _ _ hpu hho =>
    obtain ⟨i, hd⟩ := decode_of_completed (hi.withInput later) hpu
    exact .inl (hpu.growsWithoutDecodeFault.trans (growsWithoutDecodeFault_of_handoff hd hho))
  | continued _ _ hfx => exact .inl (growsWithoutDecodeFault_of_fxStep hfx)

end Sys2Proof.Machine
end

section
/-! The statements of 42_quantizer.md about DECOMP: the laws of its sum (R105), length (R104), range (R106) and
shape (R107), and that no step overshoots (R108). The axes do not interact, so each law is a fact about one step
on one axis, carried along a decomposition. -/

namespace Sys2Proof.Machine

/-! ### The sum -/

/-- What a step emits and what it leaves make up what was there (42_quantizer.md R102). -/
theorem clampAxes_add_remainAfter (r : Axes) : (clampAxes r).add (remainAfter r) = r := by
  simp [Axes.add, remainAfter, Axes.sub]

@[simp] theorem sumAxes_cons (m : Axes) (ms : List Axes) :
    sumAxes (m :: ms) = m.add (sumAxes ms) := rfl

/-- Settles O28, along the decomposition: the first move, and the sum of the others, which is what the first
step leaves. -/
theorem decompSumsToTarget : Obligations.DecompSumsToTarget := by
  intro t
  induction t using decomp_induction with
  | zero => rfl
  | step r hr ih => rw [decomp_step hr, sumAxes_cons, ih, clampAxes_add_remainAfter]

/-! ### The length -/

/-- Each step on an axis takes one from the steps it needs (42_quantizer.md R104). -/
theorem stepsFor_sub_clamp127 (c : Int) : stepsFor (c - clamp127 c) = stepsFor c - 1 := by
  simp only [stepsFor, natAbs_sub_clamp127]
  omega

theorem stepsFor_eq_zero (c : Int) : stepsFor c = 0 ↔ c = 0 := by
  unfold stepsFor
  omega

theorem decompLength_eq_zero (r : Axes) : decompLength r = 0 ↔ r = Axes.zero := by
  simp [decompLength, stepsFor_eq_zero, Axes.eq_zero_iff]

/-- A step lowers the length by one: it does so on every axis that still needs a step. -/
theorem decompLength_remainAfter (r : Axes) :
    decompLength (remainAfter r) = decompLength r - 1 := by
  simp only [decompLength, remainAfter, Axes.sub, clampAxes, stepsFor_sub_clamp127]
  omega

/-- Settles O29, along the decomposition: a step adds one move and lowers the length of the rest by one. -/
theorem decompLengthLaw : Obligations.DecompLengthLaw := by
  intro t
  induction t using decomp_induction with
  | zero => rfl
  | step r hr ih =>
    have hpos : decompLength r ≠ 0 := (decompLength_eq_zero r).not.2 hr
    rw [decomp_step hr, List.length_cons, ih, decompLength_remainAfter]
    omega

/-! ### The range -/

/-- A step emits a zero move only where nothing is left (42_quantizer.md R103). -/
theorem clampAxes_eq_zero (r : Axes) : clampAxes r = Axes.zero ↔ r = Axes.zero := by
  simp [Axes.eq_zero_iff, clampAxes]

/-- Every move of a decomposition is the clamp of a remaining displacement that is not zero
(42_quantizer.md R102, R103). -/
theorem exists_clampAxes_of_mem_decomp {t m : Axes} (h : m ∈ decomp t) :
    ∃ r, r ≠ Axes.zero ∧ m = clampAxes r := by
  induction t using decomp_induction with
  | zero => simp at h
  | step r hr ih =>
    rw [decomp_step hr, List.mem_cons] at h
    exact h.elim (fun hm => ⟨r, hr, hm⟩) ih

/-- Settles O30: each move is a clamp, of a displacement that is not zero. -/
theorem decompMovesAreInRange : Obligations.DecompMovesAreInRange := by
  intro t m h
  obtain ⟨r, hr, rfl⟩ := exists_clampAxes_of_mem_decomp h
  exact ⟨within127_clampAxes r, (clampAxes_eq_zero r).not.2 hr⟩

/-! ### The shape of an axis -/

/-- The first component of an axis is the clamp of its target. -/
theorem axisShape_clamp127 (c : Int) : axisShape c 0 (clamp127 c) := by
  unfold axisShape clamp127
  rcases lt_trichotomy c 0 with hneg | rfl | hpos
  · rw [Int.sign_eq_neg_one_of_neg hneg]; omega
  · decide
  · rw [Int.sign_eq_one_of_pos hpos]; omega

/-- A target of 0 has components 0 only. -/
theorem axisShape_zero {k : Nat} {e : Int} (h : axisShape 0 k e) : e = 0 := by
  obtain ⟨-, hshort, hafter⟩ := h
  rcases Nat.eq_zero_or_pos k with hk | hk
  · simpa using hshort hk
  · exact hafter hk

/-- Beyond 127 a step keeps the sign (42_quantizer.md R108). -/
theorem sign_sub_clamp127 {c : Int} (h : 127 < c.natAbs) : (c - clamp127 c).sign = c.sign := by
  unfold clamp127
  split
  · rw [Int.sign_eq_one_of_pos (a := c) (by omega), Int.sign_eq_one_of_pos (by omega)]
  · rw [if_pos (by omega), Int.sign_eq_neg_one_of_neg (a := c) (by omega),
      Int.sign_eq_neg_one_of_neg (by omega)]

/-- The later components of an axis are those of what its first step leaves. Up to 127 that is 0. Beyond, the
sign and the short component stay, and one full step fewer is due. -/
theorem axisShape_succ {c e : Int} {k : Nat} (h : axisShape (c - clamp127 c) k e) :
    axisShape c (k + 1) e := by
  have habs := natAbs_sub_clamp127 c
  rcases Nat.lt_or_ge 127 c.natAbs with hbeyond | hlast
  · have hdiv : c.natAbs / 127 = (c - clamp127 c).natAbs / 127 + 1 := by omega
    have hmod : (c - clamp127 c).natAbs % 127 = c.natAbs % 127 := by omega
    obtain ⟨hfull, hshort, hafter⟩ := h
    rw [sign_sub_clamp127 hbeyond] at hfull hshort
    rw [hmod] at hshort
    exact ⟨fun hk => hfull (by omega), fun hk => hshort (by omega), fun hk => hafter (by omega)⟩
  · have hzero : c - clamp127 c = 0 := by omega
    obtain rfl := axisShape_zero (hzero ▸ h)
    refine ⟨fun hk => by omega, fun hk => ?_, fun _ => rfl⟩
    have hmod : c.natAbs % 127 = 0 := by omega
    simp [hmod]

/-- Settles O31, along the decomposition: the first move by the clamp, every later one as a move of what the
first step leaves. -/
theorem decompAxisShape : Obligations.DecompAxisShape := by
  intro t k m h
  induction t using decomp_induction generalizing k with
  | zero => simp at h
  | step r hr ih =>
    rw [decomp_step hr] at h
    cases k with
    | zero =>
      obtain rfl : clampAxes r = m := by simpa using h
      exact ⟨axisShape_clamp127 _, axisShape_clamp127 _, axisShape_clamp127 _, axisShape_clamp127 _⟩
    | succ k =>
      obtain ⟨hx, hy, hv, hh⟩ := ih k h
      exact ⟨axisShape_succ hx, axisShape_succ hy, axisShape_succ hv, axisShape_succ hh⟩

/-! ### One step -/

/-- Every value lies between 0 and itself. -/
theorem between_self (r : Int) : between r r :=
  (le_total 0 r).imp (fun h => ⟨h, le_rfl⟩) (fun h => ⟨le_rfl, h⟩)

/-- Settles O32: the axis stays between 0 and any value the remaining one stood between 0 and, and falls by
`min(|r|, 127)`. -/
theorem remainingNeverOvershoots : Obligations.RemainingNeverOvershoots := by
  intro r target h
  have hfall := natAbs_sub_clamp127 r
  exact ⟨between_sub_clamp127 (between_self r), between_sub_clamp127 h, by omega⟩

end Sys2Proof.Machine
end

section
/-! The statements of 43_frame_execution.md about the executor's steps (R129 to R133) and about the four frame kinds
with a live sink (R121 to R124). -/

namespace Sys2Proof.Machine

/-! ### The executor's step as the next step of the machine -/

theorem continueFrame_of_took {s t : State} (h : fxStep s = .took t) : continueFrame s = .next t := by
  simp [continueFrame, h]

/-- A stage that ends is the next step, whatever the sink does. -/
theorem step_silent {s t : State} (hx : executing s) (h : SilentStep s t) : step s = .next t := by
  have ⟨_, hh, _⟩ := hx
  rw [step_of_executing hx, continueFrame_of_took (fxStep_silent hh h)]

/-- An event that is due and answered `ok` is the next step (43_frame_execution.md R125). -/
theorem step_due_ok {s u : State} {e : SinkEvent} {later : List SinkAnswer} (hx : executing s)
    (h : DueEvent s e u) (ha : s.sinkAnswers = .ok :: later) :
    step s = .next { u with trace := u.trace ++ [.sink e], sinkAnswers := later } := by
  have ⟨_, hh, _⟩ := hx
  have hau : u.sinkAnswers = s.sinkAnswers := by cases h <;> rfl
  rw [step_of_executing hx,
    continueFrame_of_took ((fxStep_due hh h).trans (emitSink_ok (hau.trans ha)))]

/-- Settles O12: a step of a block in a frame is an executor step or a wait, and the frame of an executor step
covers IN, the buffer and the Reassembler. -/
theorem executingFrameIsUndisturbed : Obligations.ExecutingFrameIsUndisturbed := by
  rintro s t ⟨hr, -, hbusy⟩ h
  cases stepped_of_step h with
  | reset hreset => simp [hr] at hreset
  | noInput hready | transportFatal _ hready | pushed _ _ _ hready | ran _ _ _ _ _ hready =>
    obtain ⟨-, -, hidle⟩ := hready
    exact absurd hidle hbusy
  | continued _ _ hfx =>
    have hframe := fxStep_frame hfx
    exact ⟨hframe.input, hframe.rsBuf, hframe.rsPhase, hframe.rsExpected, hframe.rsCount⟩
  | sinkSilent => exact ⟨rfl, rfl, rfl, rfl, rfl⟩

/-- Settles O41: the stage ends, or the clamped displacement is the event that is due. -/
theorem decompStepClampsAndSubtracts : Obligations.DecompStepClampsAndSubtracts := by
  intro s later hx hp
  constructor
  · intro hzero
    exact step_silent hx (.decompEnds hp hzero)
  · intro hrem ha
    exact step_due_ok hx (.decomp hp hrem) ha

/-- The pair in hand is the one at `4 + 2*fx_idx` in the buffer: the registers hold the frame that stands there
(10_state.md R12). -/
theorem Inv.fxPoints_getElem? {s : State} (hi : Inv s) (hbusy : s.fxPhase ≠ .idle)
    (hidx : s.fxIdx ≠ s.fxPointCount) :
    s.fxPoints[s.fxIdx]? = some (pointOperand s.rsBuf s.fxIdx) := by
  have hle := hi.executor.idx hbusy
  exact hi.executor.points_held hbusy _ (by omega)

/-- The pair in hand lies inside the buffer, since the frame's count is at most `MAX_POINTS`
(20_memory.md R33). -/
theorem Inv.memRead_pair {s : State} (hi : Inv s) (hbusy : s.fxPhase ≠ .idle)
    (hidx : s.fxIdx ≠ s.fxPointCount) :
    memRead (4 + 2 * s.fxIdx) 2 s =
      some [s.rsBuf.read (4 + 2 * s.fxIdx), s.rsBuf.read (5 + 2 * s.fxIdx)] := by
  have hle := hi.executor.idx hbusy
  have hcap := hi.executor.capacity hbusy
  rw [memRead_eq_some, Params.bufCap]
  refine ⟨by omega, ?_⟩
  rw [show 5 + 2 * s.fxIdx = 4 + 2 * s.fxIdx + 1 by omega]
  rfl

/-- Settles O42: the stage ends, or the move of the pair in hand is due, and that pair is the one the buffer
holds. -/
theorem replayStepEmitsTheBufferedPair : Obligations.ReplayStepEmitsTheBufferedPair := by
  intro s later hi hx hp
  have ⟨_, _, hbusy⟩ := hx
  constructor
  · intro hlast
    exact step_silent hx (.replayEnds hp hlast)
  · intro hidx
    refine ⟨_, _, hi.memRead_pair hbusy hidx, fun ha => ?_⟩
    exact step_due_ok hx (.replay _ hp hidx (hi.fxPoints_getElem? hbusy hidx)) ha

/-- Settles O43: in either stage the Button event is due. -/
theorem pressThenRelease : Obligations.PressThenRelease := by
  intro s later hx ha
  constructor
  · intro hp
    exact step_due_ok hx (.press hp) ha
  · intro hp
    exact step_due_ok hx (.release hp) ha

/-! ### A frame with a live sink

The four kinds are one execution (`exec_live`); they differ in the events `execEvents` gives for their two flags. -/

/-- The state a frame that has just started ends in. -/
theorem finished_startFrame (f : Frame) (s : State) (later : List SinkAnswer) :
    finished (startFrame f s) later = { s with
      fxPhase := .idle, fxPointCount := f.pointCount, fxClick := f.click, fxReset := f.reset,
      fxIdx := f.pointCount, fxPoints := f.points,
      rem := if f.reset then Axes.zero else s.rem,
      sinkAnswers := later,
      trace := s.trace ++ (execEvents s.params.origin.axes f).map .sink } := by
  rw [finished, pendingEvents_startFrame]
  cases hr : f.reset <;> simp [startFrame, hr]

/-- A live sink sees the events of EXEC (43_frame_execution.md R120, R134), and the executor's registers are
left as the frame sets them. -/
theorem exec_live {i : Instr} {s : State} {later : List SinkAnswer} (hh : halted s = false)
    (hp : s.fxPhase = .idle) (hcount : i.frame.points.length = i.frame.pointCount)
    (ha : s.sinkAnswers =
      List.replicate (execEvents s.params.origin.axes i.frame).length .ok ++ later) :
    exec i s = .next { s with
      fxPointCount := i.frame.pointCount, fxClick := i.frame.click, fxReset := i.frame.reset,
      fxIdx := i.frame.pointCount, fxPoints := i.frame.points,
      rem := if i.frame.reset then Axes.zero else s.rem,
      sinkAnswers := later,
      trace := s.trace ++ (execEvents s.params.origin.axes i.frame).map .sink } := by
  have hholds : holdsFrame (startFrame i.frame s) := holdsFrame_startFrame hcount
  rw [← pendingEvents_startFrame] at ha
  rw [exec_eq, execFrame_runs hh hp hcount, runToIdle,
    runFx_live hholds hh ha (pending_le_fxFuel hholds), finished_startFrame, ← hp]

/-- What a frame adds to the trace: the decomposition of `ORIGIN`, one move per pair, press and release
(43_frame_execution.md R120). -/
theorem map_sink_execEvents (origin : Axes) (f : Frame) :
    (execEvents origin f).map Event.sink =
      (if f.reset then (decomp origin).map fun m => .sink (.move m) else []) ++
      (f.points.map fun p => .sink (.move ⟨p.dx, p.dy, 0, 0⟩)) ++
      (if f.click then [.sink (.button true), .sink (.button false)] else []) := by
  simp [execEvents, replay, apply_ite (List.map Event.sink), Function.comp_def]

/-- The number of events of a frame (43_frame_execution.md R120). -/
theorem length_execEvents (origin : Axes) (f : Frame) :
    (execEvents origin f).length =
      (if f.reset then (decomp origin).length else 0) + f.points.length +
        (if f.click then 2 else 0) := by
  simp [execEvents, replay, apply_ite List.length, Nat.add_assoc]

/-- Settles O33: the events are those of EXEC with no decomposition and no click. -/
theorem frameMEmitsItsMoves : Obligations.FrameMEmitsItsMoves := by
  intro s n ps later hh hp hcount ha
  have hlive := exec_live (i := .frameM n ps) (later := later) hh hp hcount
    (by rw [ha, length_execEvents]; simp [Instr.frame, hcount])
  simpa [Instr.frame, map_sink_execEvents] using hlive

/-- Settles O34: the events are those of EXEC with the click, no decomposition. -/
theorem frameMCEmitsMovesThenClick : Obligations.FrameMCEmitsMovesThenClick := by
  intro s n ps later hh hp hcount ha
  have hlive := exec_live (i := .frameMC n ps) (later := later) hh hp hcount
    (by rw [ha, length_execEvents]; simp [Instr.frame, hcount])
  simpa [Instr.frame, map_sink_execEvents] using hlive

/-- Settles O35: the events are those of EXEC with the decomposition, no click. -/
theorem frameRMEmitsOriginThenMoves : Obligations.FrameRMEmitsOriginThenMoves := by
  intro s n ps later hh hp hcount ha
  have hlive := exec_live (i := .frameRM n ps) (later := later) hh hp hcount
    (by rw [ha, length_execEvents]; simp [Instr.frame, hcount])
  simpa [Instr.frame, map_sink_execEvents] using hlive

/-- Settles O36: the events are those of EXEC with the decomposition and the click. -/
theorem frameRMCEmitsOriginMovesClick : Obligations.FrameRMCEmitsOriginMovesClick := by
  intro s n ps later hh hp hcount ha
  have hlive := exec_live (i := .frameRMC n ps) (later := later) hh hp hcount
    (by rw [ha, length_execEvents]; simp [Instr.frame, hcount])
  simpa [Instr.frame, map_sink_execEvents] using hlive

end Sys2Proof.Machine
end

section
/-! The statement of 60_exceptions.md about a buffer DECODE rejects (R144, R95). -/

namespace Sys2Proof.Machine

/-- A buffer that decodes has its declared length, which is at least the header's four bytes; so a buffer
that is shorter than a count or not of that length is rejected (41_decoder.md R90, R95). -/
theorem decode_reject_of_length {buf : List Byte}
    (h : buf.length < 2 ∨ buf.length ≠ frameLength (declaredCount buf)) :
    ∃ why, decode buf = .reject why := by
  cases hd : decode buf with
  | reject why => exact ⟨why, rfl⟩
  | frame i =>
    obtain ⟨-, hlen⟩ := declared_of_decode hd
    have hheader : 4 ≤ frameLength (declaredCount buf) := Nat.le_add_right _ _
    omega

/-- A rejected buffer, handed to the idle executor of a block that is not halted, raises the fault with the
buffer's length (60_exceptions.md R144). -/
theorem handoff_of_reject {buf : List Byte} {why : DecodeReject} {s : State}
    (hd : decode buf = .reject why) (hh : halted s = false) (hp : s.fxPhase = .idle) :
    handoff buf s = .next (raiseFault .decodeInconsistent buf.length s) := by
  simp only [handoff, hd, whenIdle_of_idle hh hp]

/-- Settles O51: such a buffer does not decode, and the handoff of one that does not is the fault's entry. -/
theorem inconsistentBufferIsRejected : Obligations.InconsistentBufferIsRejected := by
  intro s buf hh hp hlen
  obtain ⟨why, hd⟩ := decode_reject_of_length hlen
  exact handoff_of_reject hd hh hp

end Sys2Proof.Machine
end

section
/-! The invariant of 10_state.md R11 and R12: it holds after reset, every step keeps it, and from a state with it a
step stops only where the block is halted. -/

namespace Sys2Proof.Machine

/-! ### What the invariant does not speak of -/

/-- The invariant speaks of the buffer, the Reassembler and the executor, not of the flags, the trace or what the
environment has waiting. -/
theorem Inv.withOutside {s : State} (h : Inv s) (flags : BitVec 4) (es : List Event)
    (later : List InItem) (answers : List SinkAnswer) :
    Inv { s with stFlags := flags, trace := es, input := later, sinkAnswers := answers } :=
  ⟨h.buffer, h.atReset, { h.reassembler with }, { h.executor with }⟩

/-- A fault that leaves executor and Reassembler alone changes flags and trace only (60_exceptions.md R143, R145,
R146). -/
theorem Inv.raiseFault {s : State} (h : Inv s) {c : Cause} (hc : c ≠ .decodeInconsistent) (n : Nat) :
    Inv (raiseFault c n s) := by
  cases c with
  | decodeInconsistent => exact absurd rfl hc
  | frameOversize | sinkFatal | transportFatal => exact h.withOutside _ _ _ _

/-! ### Reset -/

/-- An idle executor has nothing to satisfy. -/
theorem ExecutorInv.of_idle {s : State} (h : s.fxPhase = .idle) : ExecutorInv s := by
  constructor <;> simp [h]

/-- At a frame boundary or after one header byte the Reassembler's invariants ask for the count only. -/
theorem ReassemblerInv.of_idle {s : State} (hp : s.rsPhase = .idle) (he : s.rsExpected = none)
    (hc : s.rsCount ≤ 1) : ReassemblerInv s := by
  constructor <;> simp [hp, he, hc]

/-- Settles O3: Reassembler and executor are idle. -/
theorem invHoldsAfterReset : Obligations.InvHoldsAfterReset :=
  fun _ _ h => ⟨h, h, .of_idle rfl rfl (Nat.zero_le 1), .of_idle rfl⟩

theorem Inv.afterReset {s : State} (h : Inv s) : Inv (afterReset s) :=
  (invHoldsAfterReset s.params s.bufAfterReset h.atReset).withOutside _ _ _ _

/-! ### PUSH -/

theorem frameLength_even (n : Nat) : frameLength n % 2 = 0 := by unfold frameLength; omega

/-- The longest frame a header can declare (30_encoding.md R51). -/
theorem frameLength_le16_le (b0 b1 : Byte) : frameLength (le16 b0 b1) ≤ 131074 := by
  have := le16_lt b0 b1
  unfold frameLength
  omega

/-- The capacity is the length of the longest frame that is kept (00_scope.md R6). -/
theorem frameLength_le_bufCap {p : Params} {n : Nat} : frameLength n ≤ p.bufCap ↔ n ≤ p.maxPoints.toNat := by
  unfold frameLength Params.bufCap
  omega

/-- PUSH writes inside the capacity. -/
theorem Pushed.buffer {b : Byte} {s t : State} {out : Option (List Byte)} (h : Pushed b s t out)
    (hb : BufferOf s.params s.rsBuf) : BufferOf t.params t.rsBuf := by
  cases h with
  | first _ _ hcap | header _ _ hcap => exact hb.write hcap b
  | oversize _ _ hcap => simpa using hb.write hcap b
  | stored _ _ _ hcap | completed _ _ _ hcap => exact hb.write hcap b
  | skipped | skipEnds => exact hb

/-- PUSH keeps the Reassembler's invariants (10_state.md R11): the header fixes the expected length, every byte
after it counts towards that length. -/
theorem Pushed.reassemblerInv {b : Byte} {s t : State} {out : Option (List Byte)}
    (h : Pushed b s t out) (hi : ReassemblerInv s) : ReassemblerInv t := by
  cases h with
  | first hp hc => exact .of_idle hp (hi.idle_iff.1 hp) le_rfl
  | header hp hc hcap hle =>
    have h4 := frameLength_pos (le16 (s.rsBuf.read 0) b)
    constructor
    · simp
    · simp
    · exact fun _ => ⟨_, rfl, h4, frameLength_le_bufCap.2 hle, frameLength_even _, le_rfl,
        show 2 < frameLength _ by omega⟩
    · simp
    · exact fun _ => by rw [headerCount_write_one]
  | oversize hp hc hcap hgt =>
    have h4 := frameLength_pos (le16 (s.rsBuf.read 0) b)
    have hcap' : s.params.bufCap < frameLength (le16 (s.rsBuf.read 0) b) :=
      Nat.lt_of_not_le fun hle => Nat.not_le.2 hgt (frameLength_le_bufCap.1 hle)
    constructor
    · simp
    · simp
    · simp
    · exact fun _ => ⟨_, rfl, hcap', frameLength_le16_le _ _, frameLength_even _, le_rfl,
        show 2 < frameLength _ by omega⟩
    · simp
  | stored len hp he hcap hlt =>
    obtain ⟨len', he', h4, hle, heven, h2, -⟩ := hi.collect hp
    obtain rfl : len = len' := Option.some.inj (he.symm.trans he')
    have hheader := hi.header hp
    constructor
    · simp [hp, he]
    · simp [hp]
    · exact fun _ => ⟨len, he, h4, hle, heven, Nat.le_succ_of_le h2, hlt⟩
    · simp [hp]
    · exact fun _ => by rw [headerCount_write h2]; exact hheader
  | skipped len hp he hlt =>
    obtain ⟨len', he', hcap, hle, heven, h2, -⟩ := hi.skip hp
    obtain rfl : len = len' := Option.some.inj (he.symm.trans he')
    constructor
    · simp [hp, he]
    · simp [hp]
    · simp [hp]
    · exact fun _ => ⟨len, he, hcap, hle, heven, Nat.le_succ_of_le h2, hlt⟩
    · simp [hp]
  | completed | skipEnds => exact .of_idle rfl rfl (Nat.zero_le 1)

theorem Pushed.fxPhase_eq {b : Byte} {s t : State} {out : Option (List Byte)} (h : Pushed b s t out) :
    t.fxPhase = s.fxPhase := by
  obtain ⟨-, hphase, -⟩ := h.frame
  exact hphase

theorem Pushed.sinkAnswers_eq {b : Byte} {s t : State} {out : Option (List Byte)}
    (h : Pushed b s t out) : t.sinkAnswers = s.sinkAnswers := by
  obtain ⟨-, -, -, -, -, -, -, -, -, hanswers, -⟩ := h.frame
  exact hanswers

theorem Pushed.halted_eq {b : Byte} {s t : State} {out : Option (List Byte)} (h : Pushed b s t out) :
    halted t = halted s := by
  obtain ⟨-, -, -, -, -, -, -, -, -, -, -, hhalted, -⟩ := h.frame
  exact hhalted

theorem Pushed.bufAfterReset_eq {b : Byte} {s t : State} {out : Option (List Byte)}
    (h : Pushed b s t out) : t.bufAfterReset = s.bufAfterReset := by
  obtain ⟨-, -, -, -, -, -, -, -, -, -, -, -, hbuf⟩ := h.frame
  exact hbuf

/-- PUSH, taken by an idle executor, keeps the invariant. -/
theorem Pushed.inv {b : Byte} {s t : State} {out : Option (List Byte)} (h : Pushed b s t out)
    (hi : Inv s) (hp : s.fxPhase = .idle) : Inv t :=
  ⟨h.buffer hi.buffer, by rw [h.params, h.bufAfterReset_eq]; exact hi.atReset,
    h.reassemblerInv hi.reassembler, .of_idle (h.fxPhase_eq.trans hp)⟩

/-! ### The start of a frame -/

/-- The buffer holds the frame the registers hold (10_state.md R12). -/
structure BufferHolds (m : Memory) (f : Frame) : Prop where
  count : headerCount m = f.pointCount
  click : clickOperand m = f.click
  reset : resetOperand m = f.reset
  points : ∀ k < f.pointCount, f.points[k]? = some (pointOperand m k)

/-- What DECODE reads from the bytes in the buffer is what stands there (41_decoder.md R91 to R94,
20_memory.md R39). -/
theorem bufferHolds_of_decode {m : Memory} {len : Nat} {i : Instr}
    (h : decode (m.bytes 0 len) = .frame i) : BufferHolds m i.frame := by
  obtain ⟨b0, b1, b2, b3, payload, hbytes, hlen, hf⟩ := decode_frame h
  have hlen4 : len = payload.length + 4 := by simpa using congrArg List.length hbytes
  have hread (k : Nat) (hk : k < len) :
      (b0 :: b1 :: b2 :: b3 :: payload)[k]? = some (m.read k) := by
    rw [← hbytes, Memory.getElem?_bytes, if_pos hk, Nat.zero_add]
  obtain rfl : b0 = m.read 0 := by simpa using hread 0 (by omega)
  obtain rfl : b1 = m.read 1 := by simpa using hread 1 (by omega)
  obtain rfl : b2 = m.read 2 := by simpa using hread 2 (by omega)
  obtain rfl : b3 = m.read 3 := by simpa using hread 3 (by omega)
  rw [hf]
  refine ⟨rfl, rfl, rfl, fun k hk => getElem?_decodePoints payload k _ _ ?_ ?_⟩
  · simpa [Nat.add_comm 4] using hread (4 + 2 * k) (by simp at hk; omega)
  · simpa [Nat.add_comm 5] using hread (5 + 2 * k) (by simp at hk; omega)

/-- The start of a well-formed frame that stands in the buffer, from an idle Reassembler. -/
theorem Inv.startFrame {s : State} (hi : Inv s) {f : Frame} (hwf : f.wf = true)
    (hcap : f.pointCount ≤ s.params.maxPoints.toNat) (hm : BufferHolds s.rsBuf f)
    (hp : s.rsPhase = .idle) (hc : s.rsCount = 0) : Inv (startFrame f s) := by
  obtain ⟨hcount, hlen, hpoints⟩ := (Frame.wf_iff f).1 hwf
  refine ⟨hi.buffer, hi.atReset, { hi.reassembler with }, ?_⟩
  exact {
    reassembler_idle := fun _ => ⟨hp, hc⟩
    count := fun _ => hcount
    capacity := fun _ => hcap
    idx := fun _ => Nat.zero_le _
    points := fun _ => hlen
    points_i8 := fun _ => hpoints
    header_held := fun _ => hm.count
    click_held := fun _ => hm.click
    reset_held := fun _ => hm.reset
    points_held := fun _ => hm.points
    decomp_stage := fun hphase => by
      have hr : f.reset = true := by
        rw [startFrame_fxPhase] at hphase
        by_contra hr
        simp [hr] at hphase
      refine ⟨hr, rfl, ?_⟩
      rw [startFrame_rem, if_pos hr]
      exact ⟨between_self _, between_self _, between_self _, between_self _⟩
    button_stage := fun hphase => by
      rw [startFrame_fxPhase] at hphase
      split at hphase <;> simp at hphase }

/-! ### The executor -/

theorem axesBetween_remainAfter {r t : Axes} (h : axesBetween r t) : axesBetween (remainAfter r) t := by
  obtain ⟨hx, hy, hv, hh⟩ := h
  exact ⟨between_sub_clamp127 hx, between_sub_clamp127 hy, between_sub_clamp127 hv,
    between_sub_clamp127 hh⟩

/-- The part of the invariant that speaks of how far a frame has come: the rest of it speaks of what no executor
step changes. -/
structure InStage (s : State) : Prop where
  idx : s.fxIdx ≤ s.fxPointCount
  decomp : s.fxPhase = .decomp →
    s.fxReset = true ∧ s.fxIdx = 0 ∧ axesBetween s.rem s.params.origin.axes
  button : s.fxPhase = .press ∨ s.fxPhase = .release → s.fxClick = true ∧ s.fxIdx = s.fxPointCount

theorem ExecutorInv.inStage {s : State} (h : ExecutorInv s) (hbusy : s.fxPhase ≠ .idle) : InStage s :=
  ⟨h.idx hbusy, h.decomp_stage, h.button_stage⟩

theorem SilentStep.inStage {s t : State} (h : SilentStep s t) (hs : InStage s) : InStage t := by
  cases h with
  | decompEnds hp hr => exact ⟨hs.idx, by simp, by simp⟩
  | replayEnds hp hidx => cases s.fxClick <;> exact ⟨hs.idx, by simp, by simp [hidx]⟩

theorem DueEvent.inStage {s u : State} {e : SinkEvent} (h : DueEvent s e u) (hs : InStage s)
    (hlen : s.fxPoints.length = s.fxPointCount) : InStage u := by
  cases h with
  | decomp hp hr =>
    obtain ⟨hreset, hidx, hbetween⟩ := hs.decomp hp
    exact ⟨hs.idx, fun _ => ⟨hreset, hidx, axesBetween_remainAfter hbetween⟩, by simp [hp]⟩
  | replay p hp hidx hpt =>
    have hlt := (List.getElem?_eq_some_iff.1 hpt).1
    exact ⟨show s.fxIdx + 1 ≤ s.fxPointCount by omega, by simp [hp], by simp [hp]⟩
  | press hp => exact ⟨hs.idx, by simp, fun _ => hs.button (.inl hp)⟩
  | release hp => exact ⟨hs.idx, by simp, by simp⟩

theorem inStage_of_fxStep {s t : State} (h : fxStep s = .took t) (hs : InStage s)
    (hlen : s.fxPoints.length = s.fxPointCount) : InStage t := by
  obtain ⟨-, ht | ⟨e, u, hu, he⟩⟩ := fxStep_took h
  · exact ht.inStage hs
  · obtain ⟨hidx, hdecomp, hbutton⟩ := hu.inStage hs hlen
    obtain ⟨later, ⟨-, rfl⟩ | ⟨-, rfl⟩⟩ := emitSink_took he <;> exact ⟨hidx, hdecomp, hbutton⟩

/-- What an executor step does not change carries over, however far the frame comes. -/
theorem FxFrame.executorInv {s t : State} (h : FxFrame s t) (hx : ExecutorInv s)
    (hbusy : s.fxPhase ≠ .idle) (ht : InStage t) : ExecutorInv t where
  reassembler_idle _ := by rw [h.rsPhase, h.rsCount]; exact hx.reassembler_idle hbusy
  count _ := by rw [h.fxPointCount]; exact hx.count hbusy
  capacity _ := by rw [h.fxPointCount, h.params]; exact hx.capacity hbusy
  idx _ := ht.idx
  points _ := by rw [h.fxPoints, h.fxPointCount]; exact hx.points hbusy
  points_i8 _ := by rw [h.fxPoints]; exact hx.points_i8 hbusy
  header_held _ := by rw [h.rsBuf, h.fxPointCount]; exact hx.header_held hbusy
  click_held _ := by rw [h.rsBuf, h.fxClick]; exact hx.click_held hbusy
  reset_held _ := by rw [h.rsBuf, h.fxReset]; exact hx.reset_held hbusy
  points_held _ := by rw [h.fxPoints, h.fxPointCount, h.rsBuf]; exact hx.points_held hbusy
  decomp_stage := ht.decomp
  button_stage := ht.button

theorem FxFrame.reassemblerInv {s t : State} (h : FxFrame s t) (hr : ReassemblerInv s) :
    ReassemblerInv t := by
  obtain ⟨hidle, hcount, hcollect, hskip, hheader⟩ := hr
  rw [← h.rsPhase, ← h.rsExpected] at hidle
  rw [← h.rsPhase, ← h.rsCount] at hcount
  rw [← h.rsPhase, ← h.rsExpected, ← h.rsCount, ← h.params] at hcollect hskip
  rw [← h.rsPhase, ← h.rsExpected, ← h.rsBuf] at hheader
  exact ⟨hidle, hcount, hcollect, hskip, hheader⟩

/-- An executor step keeps the invariant. -/
theorem inv_of_fxStep {s t : State} (hi : Inv s) (h : fxStep s = .took t) : Inv t := by
  have hframe := fxStep_frame h
  have hbusy : s.fxPhase ≠ .idle := fun hp => by simp [fxStep_idle hp] at h
  have hstage := inStage_of_fxStep h (hi.executor.inStage hbusy) (hi.executor.points hbusy)
  exact ⟨by rw [hframe.params, hframe.rsBuf]; exact hi.buffer,
    by rw [hframe.params, hframe.bufAfterReset]; exact hi.atReset,
    hframe.reassemblerInv hi.reassembler, hframe.executorInv hi.executor hbusy hstage⟩

/-! ### The handoff of a completed frame -/

/-- A well-formed instruction is executed by a run from the start of its frame. -/
theorem exec_wf {i : Instr} {s : State} (hwf : i.wf = true) (hh : halted s = false)
    (hp : s.fxPhase = .idle) : exec i s = runToIdle (startFrame i.frame s) := by
  obtain ⟨-, hcount, -⟩ := (Frame.wf_iff _).1 hwf
  rw [exec_eq, execFrame_runs hh hp hcount]

/-- The execution of a well-formed instruction that answers a next state is such a run. -/
theorem exec_wf_next {i : Instr} {s t : State} (hwf : i.wf = true) (h : exec i s = .next t) :
    halted s = false ∧ s.fxPhase = .idle ∧ runToIdle (startFrame i.frame s) = .next t := by
  obtain ⟨hh, hp, -⟩ := execFrame_next ((exec_eq i s).symm.trans h)
  exact ⟨hh, hp, (exec_wf hwf hh hp).symm.trans h⟩

/-- What every executor step keeps from the start of a frame on, its execution keeps. -/
theorem exec_wf_invariant {P : State → Prop} (hP : ∀ s t, P s → fxStep s = .took t → P t) {i : Instr}
    {s t : State} (hwf : i.wf = true) (h : exec i s = .next t) (hs : P (startFrame i.frame s)) : P t := by
  obtain ⟨-, -, hrun⟩ := exec_wf_next hwf h
  exact runFx_invariant hP hs hrun

theorem handoff_of_decode {frame : List Byte} {i : Instr} (hd : decode frame = .frame i) (s : State) :
    handoff frame s = exec i s := by
  simp only [handoff, hd]

/-- Where a PUSH completes a frame, that frame decodes, fits the capacity and stands in the buffer of an idle
Reassembler. -/
theorem Pushed.completedFrame {b : Byte} {s t : State} {frame : List Byte} (hi : Inv s)
    (h : Pushed b s t (some frame)) :
    ∃ i, decode frame = .frame i ∧ i.frame.pointCount ≤ t.params.maxPoints.toNat ∧
      BufferHolds t.rsBuf i.frame ∧ t.rsPhase = .idle ∧ t.rsCount = 0 := by
  obtain ⟨i, hd⟩ := decode_of_completed hi h
  obtain ⟨hcount, hlen⟩ := declared_of_decode hd
  cases h with
  | completed len hp he =>
    obtain ⟨len', he', -, hle, -⟩ := hi.reassembler.collect hp
    obtain rfl : len = len' := Option.some.inj (he.symm.trans he')
    rw [Memory.length_bytes] at hlen
    refine ⟨i, hd, ?_, bufferHolds_of_decode hd, rfl, rfl⟩
    rw [hcount]
    exact frameLength_le_bufCap.1 (hlen ▸ hle)

/-- A frame that a PUSH completed is executed with the invariant kept at every step. -/
theorem Pushed.inv_handoff {b : Byte} {s t u : State} {frame : List Byte} (hi : Inv s)
    (hp : s.fxPhase = .idle) (h : Pushed b s t (some frame)) (hho : handoff frame t = .next u) :
    Inv u := by
  obtain ⟨i, hd, hcap, hm, hrs, hc⟩ := h.completedFrame hi
  have hwf := wf_of_decode hd
  exact exec_wf_invariant (fun _ _ => inv_of_fxStep) hwf ((handoff_of_decode hd t).symm.trans hho)
    ((h.inv hi hp).startFrame hwf hcap hm hrs hc)

/-! ### Every step -/

/-- Settles O4, by the operations a step can be. -/
theorem stepKeepsInv : Obligations.StepKeepsInv := by
  intro s t hi h
  cases stepped_of_step h with
  | reset => exact hi.afterReset
  | noInput | sinkSilent => exact hi
  | transportFatal later => exact (hi.withInput later).raiseFault (by decide) 0
  | pushed b later _ hready _ hpu =>
    obtain ⟨-, -, hp⟩ := hready
    exact hpu.inv (hi.withInput later) hp
  | ran b later v _ frame hready _ hpu hho =>
    obtain ⟨-, -, hp⟩ := hready
    exact hpu.inv_handoff (hi.withInput later) hp hho
  | continued _ _ hfx => exact inv_of_fxStep hi hfx

/-! ### Progress -/

/-- While a frame executes the registers hold it. -/
theorem Inv.holdsFrame {s : State} (hi : Inv s) (hbusy : s.fxPhase ≠ .idle) : holdsFrame s :=
  ⟨hi.executor.points hbusy, hi.executor.idx hbusy⟩

/-- A well-formed instruction handed to the idle executor always answers a next state. -/
theorem exec_wf_answers {i : Instr} {s : State} (hwf : i.wf = true) (hh : halted s = false)
    (hp : s.fxPhase = .idle) : ∃ t, exec i s = .next t := by
  obtain ⟨-, hcount, -⟩ := (Frame.wf_iff _).1 hwf
  rw [exec_wf hwf hh hp]
  exact runFx_next (holdsFrame_startFrame hcount) _

/-- Where the registers hold a frame the executor takes a step or waits. -/
theorem fxStep_ne_stops {s : State} (hf : holdsFrame s) (r : Fault) : fxStep s ≠ .stops r := by
  intro h
  obtain ⟨t, ht⟩ := runFx_next hf 1
  simp [runFx, h] at ht

/-- From a state with the invariant PUSH of any byte answers a next state: the Reassembler has a rule for it, and a
frame it completes decodes. -/
theorem Inv.push_answers {s : State} (hi : Inv s) (hh : halted s = false) (hp : s.fxPhase = .idle)
    (b : Byte) : ∃ t, push b s = .next t := by
  obtain ⟨t, out, hpu⟩ := pushed_total hi b
  rw [push_of_pushed hpu]
  cases out with
  | none => exact ⟨t, rfl⟩
  | some frame =>
    obtain ⟨i, hd⟩ := decode_of_completed hi hpu
    show ∃ u, handoff frame t = .next u
    rw [handoff_of_decode hd]
    exact exec_wf_answers (wf_of_decode hd) (hpu.halted_eq.trans hh) (hpu.fxPhase_eq.trans hp)

/-- Settles O5: it is at IN a wait, a PUSH or the transport's signal, and else an executor step or a wait. -/
theorem stepStopsOnlyWhenHalted : Obligations.StepStopsOnlyWhenHalted := by
  intro s hi hr hh
  by_cases hp : s.fxPhase = .idle
  · rw [step_of_ready ⟨hr, hh, hp⟩, takeInput]
    split
    · exact ⟨s, rfl⟩
    · rename_i b later _
      exact (hi.withInput later).push_answers (s := { s with input := later }) hh hp b
    · exact ⟨_, rfl⟩
  · rw [step_of_executing ⟨hr, hh, hp⟩, continueFrame]
    cases h : fxStep s with
    | took t => exact ⟨t, rfl⟩
    | waits => exact ⟨s, rfl⟩
    | stops r => exact absurd h (fxStep_ne_stops (hi.holdsFrame hp) r)

end Sys2Proof.Machine
end

section
/-! The statements about the trace and the status flags that hold along every step: flags and trace (10_state.md R16,
R21), the halt (60_exceptions.md R145 to R148), Button events (43_frame_execution.md R126) and the range of moves
(42_quantizer.md R106, R110, R112). -/

namespace Sys2Proof.Machine

/-! ### What every step is made of -/

/-- A property that each part of a step keeps: taking what stands at IN, a PUSH, a fault raised by an idle block, the
start of a frame, an executor step. -/
structure KeptByParts (P : State → Prop) : Prop where
  input : ∀ (s : State) (later : List InItem), P s → P { s with input := later }
  pushed : ∀ (b : Byte) (s t : State) (out : Option (List Byte)),
    halted s = false → s.fxPhase = .idle → P s → Pushed b s t out → P t
  fault : ∀ (c : Cause) (n : Nat) (s : State),
    halted s = false → s.fxPhase = .idle → P s → P (raiseFault c n s)
  start : ∀ (f : Frame) (s : State),
    halted s = false → s.fxPhase = .idle → f.wf = true → P s → P (startFrame f s)
  executor : ∀ s t : State, P s → fxStep s = .took t → P t

/-- A handoff is a fault, or a start and a run. -/
theorem KeptByParts.handoff {P : State → Prop} (hP : KeptByParts P) {frame : List Byte} {s t : State}
    (hs : P s) (h : handoff frame s = .next t) : P t := by
  obtain ⟨hh, hp, ⟨i, hd, hexec⟩ | ⟨why, -, rfl⟩⟩ := handoff_next h
  · exact exec_wf_invariant hP.executor (wf_of_decode hd) hexec
      (hP.start _ _ hh hp (wf_of_decode hd) hs)
  · exact hP.fault _ _ _ hh hp hs

/-- What each part keeps, every step that is no reset keeps. -/
theorem KeptByParts.step {P : State → Prop} (hP : KeptByParts P) {s t : State} (hr : s.resetIn = false)
    (hs : P s) (h : step s = .next t) : P t := by
  cases stepped_of_step h with
  | reset hreset => simp [hr] at hreset
  | noInput | sinkSilent => exact hs
  | transportFatal later hready =>
    obtain ⟨-, hh, hp⟩ := hready
    exact hP.fault _ _ _ hh hp (hP.input s later hs)
  | pushed b later _ hready _ hpu =>
    obtain ⟨-, hh, hp⟩ := hready
    exact hP.pushed b { s with input := later } t none hh hp (hP.input s later hs) hpu
  | ran b later v _ frame hready _ hpu hho =>
    obtain ⟨-, hh, hp⟩ := hready
    exact hP.handoff (hP.pushed b { s with input := later } v _ hh hp (hP.input s later hs) hpu) hho
  | continued _ _ hfx => exact hP.executor _ _ hs hfx

/-- An asserted reset is tested before anything else (70_reset_and_hazards.md R170). -/
theorem step_reset {s : State} (h : s.resetIn = true) : step s = .next (afterReset s) := by
  simp [step, nextOperation, h]

theorem eq_afterReset_of_step {s t : State} (hr : s.resetIn = true) (h : step s = .next t) :
    t = afterReset s :=
  Host.Outcome.next.inj (h.symm.trans (step_reset hr))

/-! ### The trace and the flags

Every part of a step appends events to the trace and sets the flags of the DIAG events among them, no other. -/

/-- The flags after more events: each DIAG event sets its cause's (10_state.md R16). -/
def flagsAfter : BitVec 4 → List Event → BitVec 4
  | flags, [] => flags
  | flags, .sink _ :: es => flagsAfter flags es
  | flags, .diag c _ :: es => flagsAfter (setFlag c flags) es

theorem flagsAfter_append (flags : BitVec 4) (es fs : List Event) :
    flagsAfter flags (es ++ fs) = flagsAfter (flagsAfter flags es) fs := by
  induction es generalizing flags with
  | nil => rfl
  | cons e es ih => cases e <;> exact ih _

/-- A flag is set after more events where it was set before or its cause is among them. -/
theorem flagIsSet_flagsAfter (c : Cause) (flags : BitVec 4) (es : List Event) :
    flagIsSet c (flagsAfter flags es) = (flagIsSet c flags || es.any (isDiagOf c)) := by
  induction es generalizing flags with
  | nil => simp [flagsAfter]
  | cons e es ih =>
    cases e with
    | sink e => simp [flagsAfter, ih, isDiagOf]
    | diag d n =>
      rw [flagsAfter, ih, flagIsSet_setFlag, List.any_cons, Bool.or_assoc]
      simp only [isDiagOf, eq_comm (a := c)]
      rfl

/-- From `s` to `t` the events `es` joined the trace, and the flags are those they set. -/
structure Logged (s t : State) (es : List Event) : Prop where
  trace : t.trace = s.trace ++ es
  stFlags : t.stFlags = flagsAfter s.stFlags es

theorem Logged.nil {s t : State} (ht : t.trace = s.trace) (hf : t.stFlags = s.stFlags) :
    Logged s t [] :=
  ⟨by rw [ht, List.append_nil], hf⟩

theorem Logged.trans {s t u : State} {es fs : List Event} (h : Logged s t es) (k : Logged t u fs) :
    Logged s u (es ++ fs) :=
  ⟨by rw [k.trace, h.trace, List.append_assoc], by rw [k.stFlags, h.stFlags, flagsAfter_append]⟩

theorem logged_raiseFault (c : Cause) (n : Nat) (s : State) :
    Logged s (raiseFault c n s) [.diag c n] :=
  ⟨raiseFault_trace c n s, raiseFault_stFlags c n s⟩

theorem Pushed.logged {b : Byte} {s t : State} {out : Option (List Byte)} (h : Pushed b s t out) :
    ∃ es, Logged s t es := by
  cases h with
  | oversize => exact ⟨_, raiseFault_trace _ _ _, raiseFault_stFlags _ _ _⟩
  | first | header | stored | completed | skipped | skipEnds => exact ⟨_, .nil rfl rfl⟩

/-- A SINK event joins the trace, and after a `fatal` answer the fault's DIAG event (60_exceptions.md R145). -/
theorem emitSink_logged {e : SinkEvent} {s t : State} (h : emitSink e s = .took t) :
    Logged s t [.sink e] ∨ Logged s t [.sink e, .diag .sinkFatal 0] := by
  have called (later : List SinkAnswer) :
      Logged s { s with trace := s.trace ++ [.sink e], sinkAnswers := later } [.sink e] := ⟨rfl, rfl⟩
  obtain ⟨later, ⟨-, rfl⟩ | ⟨-, rfl⟩⟩ := emitSink_took h
  · exact .inl (called later)
  · exact .inr ((called later).trans (logged_raiseFault _ _ _))

theorem DueEvent.logged {s u : State} {e : SinkEvent} (h : DueEvent s e u) : Logged s u [] := by
  cases h <;> exact .nil rfl rfl

/-- What an executor step adds: nothing where a stage ends, else the event that was due. -/
theorem fxStep_logged {s t : State} (h : fxStep s = .took t) :
    Logged s t [] ∨ ∃ e u, DueEvent s e u ∧
      (Logged s t [.sink e] ∨ Logged s t [.sink e, .diag .sinkFatal 0]) := by
  obtain ⟨-, hs | ⟨e, u, hu, he⟩⟩ := fxStep_took h
  · left; cases hs <;> exact .nil rfl rfl
  · right
    exact ⟨e, u, hu, (emitSink_logged he).imp hu.logged.trans hu.logged.trans⟩

theorem keptByParts_logged (s : State) : KeptByParts fun t => ∃ es, Logged s t es where
  input _ _ := fun ⟨es, h⟩ => ⟨es, h.trace, h.stFlags⟩
  pushed _ _ _ _ _ _ := fun ⟨_, h⟩ hpu =>
    have ⟨_, k⟩ := hpu.logged
    ⟨_, h.trans k⟩
  fault c n t _ _ := fun ⟨_, h⟩ => ⟨_, h.trans (logged_raiseFault c n t)⟩
  start _ _ _ _ _ := fun ⟨es, h⟩ => ⟨es, h.trace, h.stFlags⟩
  executor _ _ := fun ⟨_, h⟩ hfx => by
    obtain k | ⟨_, _, -, k | k⟩ := fxStep_logged hfx <;> exact ⟨_, h.trans k⟩

/-- Everything a step that is no reset does to trace and flags. -/
theorem step_logged {s t : State} (hr : s.resetIn = false) (h : step s = .next t) :
    ∃ es, Logged s t es :=
  (keptByParts_logged s).step hr ⟨[], .nil rfl rfl⟩ h

/-- Settles O7: more events set more flags. -/
theorem flagsClearedOnlyByReset : Obligations.FlagsClearedOnlyByReset := by
  intro s t c hr h hset
  obtain ⟨es, hlog⟩ := step_logged hr h
  rw [hlog.stFlags, flagIsSet_flagsAfter, hset, Bool.true_or]

/-- Settles O9: what a step logs is what joins the trace. -/
theorem traceOnlyGrows : Obligations.TraceOnlyGrows := by
  intro s t hr h
  obtain ⟨es, hlog⟩ := step_logged hr h
  exact ⟨es, hlog.trace⟩

/-- Settles O8: a reset clears both; any other step's events join the trace and set their own flags. -/
theorem flagsTellTheTrace : Obligations.FlagsTellTheTrace := by
  intro s t htell h c
  cases hr : s.resetIn with
  | false =>
    obtain ⟨es, hlog⟩ := step_logged hr h
    rw [hlog.stFlags, hlog.trace, flagIsSet_flagsAfter, List.any_append, htell c]
  | true =>
    obtain rfl := eq_afterReset_of_step hr h
    simp [flagIsSet]

/-! ### The halt -/

/-- The answers a run took: all of them `ok` and the block not halted, or `ok` and then the `fatal` that halted
it. -/
def AnswersTaken (answers : List SinkAnswer) (t : State) : Prop :=
  (halted t = false ∧ ∃ k, answers = List.replicate k .ok ++ t.sinkAnswers) ∨
  (flagIsSet .sinkFatal t.stFlags = true ∧
    ∃ k, answers = List.replicate k .ok ++ .fatal :: t.sinkAnswers)

theorem halted_of_sinkFatal {s : State} (h : flagIsSet .sinkFatal s.stFlags = true) :
    halted s = true := by
  simp [halted, h]

theorem DueEvent.halted_eq {s u : State} {e : SinkEvent} (h : DueEvent s e u) :
    halted u = halted s := by
  cases h <;> rfl

theorem DueEvent.sinkAnswers_eq {s u : State} {e : SinkEvent} (h : DueEvent s e u) :
    u.sinkAnswers = s.sinkAnswers := by
  cases h <;> rfl

/-- One more executor step: a stage that ends takes no answer, an event takes the next one. -/
theorem AnswersTaken.fxStep {answers : List SinkAnswer} {s t : State} (hs : AnswersTaken answers s)
    (h : fxStep s = .took t) : AnswersTaken answers t := by
  obtain ⟨hh, hstep⟩ := fxStep_took h
  obtain ⟨-, k, hk⟩ | ⟨hfatal, -⟩ := hs
  swap
  · simp [halted_of_sinkFatal hfatal] at hh
  obtain hsilent | ⟨e, u, hu, he⟩ := hstep
  · left; cases hsilent <;> exact ⟨hh, k, hk⟩
  · obtain ⟨later, ⟨ha, rfl⟩ | ⟨ha, rfl⟩⟩ := emitSink_took he <;> rw [hu.sinkAnswers_eq] at ha
    · exact .inl ⟨hu.halted_eq.trans hh, k + 1, by simp [hk, ha, List.replicate_succ']⟩
    · exact .inr ⟨by simp [flagIsSet_setFlag], k, by simp [hk, ha]⟩

/-- A block that was not halted and is halted after a run took a `fatal`. -/
theorem AnswersTaken.of_halted {answers : List SinkAnswer} {t : State} (h : AnswersTaken answers t)
    (hh : halted t = true) :
    flagIsSet .sinkFatal t.stFlags = true ∧
      ∃ k, answers = List.replicate k .ok ++ .fatal :: t.sinkAnswers := by
  obtain ⟨hnot, -⟩ | h := h
  · simp [hh] at hnot
  · exact h

theorem answersTaken_start {s : State} (hh : halted s = false) : AnswersTaken s.sinkAnswers s :=
  .inl ⟨hh, 0, rfl⟩

/-- The execution of a handed-off frame takes answers as a run does; a rejected buffer takes none. -/
theorem answersTaken_of_handoff {frame : List Byte} {s t : State} (h : handoff frame s = .next t) :
    AnswersTaken s.sinkAnswers t := by
  obtain ⟨hh, -, ⟨i, hd, hexec⟩ | ⟨why, -, rfl⟩⟩ := handoff_next h
  · exact exec_wf_invariant (P := AnswersTaken s.sinkAnswers) (fun _ _ => AnswersTaken.fxStep)
      (wf_of_decode hd) hexec (answersTaken_start (s := startFrame i.frame s) hh)
  · exact .inl ⟨by simp [hh], 0, by simp⟩

/-- Settles O53: waits, resets and pushes halt nothing; the executor halts the block by a `fatal` answer only, the
transport by its signal. -/
theorem haltComesFromCollaborators : Obligations.HaltComesFromCollaborators := by
  constructor
  · intro s t hr h hhalt
    cases stepped_of_step h with
    | reset hreset => simp [hr] at hreset
    | noInput hready =>
      obtain ⟨-, hh, -⟩ := hready
      simp [hhalt] at hh
    | sinkSilent hx =>
      obtain ⟨-, hh, -⟩ := hx
      simp [hhalt] at hh
    | transportFatal later hready hin =>
      obtain ⟨-, -, hp⟩ := hready
      exact .inr ⟨by simp [flagIsSet_setFlag], hp, by simpa using hin, by simp⟩
    | pushed b later _ hready _ hpu =>
      obtain ⟨-, hh, -⟩ := hready
      have hsame : halted t = halted s := hpu.halted_eq
      simp [hhalt, hh] at hsame
    | ran b later v _ frame _ _ hpu hho =>
      have htaken := answersTaken_of_handoff hho
      rw [hpu.sinkAnswers_eq] at htaken
      exact .inl (htaken.of_halted hhalt)
    | continued _ hx hfx =>
      obtain ⟨-, hh, -⟩ := hx
      exact .inl (((answersTaken_start hh).fxStep hfx).of_halted hhalt)
  · intro s t hhalt h
    by_contra hr
    rw [Bool.not_eq_true] at hr
    simp [step, nextOperation, hr, hhalt] at h

/-! ### Button events -/

@[simp] theorem scanTrace_append (es fs : List Event) :
    scanTrace (es ++ fs) = fs.foldl scanEvent (scanTrace es) := by
  simp [scanTrace]

/-- Outside `FX_RELEASE` no press is open. -/
theorem buttonsPaired_iff {s : State} (h : s.fxPhase ≠ .release) :
    buttonsPaired s ↔ scanTrace s.trace = .closed := by
  simp [buttonsPaired, h]

/-- In `FX_RELEASE` of a block that is not halted a press is open. -/
theorem buttonsPaired_release_iff {s : State} (h : s.fxPhase = .release) (hh : halted s = false) :
    buttonsPaired s ↔ scanTrace s.trace = .pressed := by
  simp [buttonsPaired, h, hh]

/-- Where no press is open, a DIAG event opens none. -/
@[simp] theorem scanEvent_closed_diag (c : Cause) (n : Nat) :
    scanEvent .closed (.diag c n) = .closed := rfl

theorem Pushed.buttonsPaired {b : Byte} {s t : State} {out : Option (List Byte)} (h : Pushed b s t out)
    (hp : s.fxPhase = .idle) (hs : buttonsPaired s) : buttonsPaired t := by
  have hclosed := (buttonsPaired_iff (by simp [hp])).1 hs
  rw [buttonsPaired_iff (by simp [h.fxPhase_eq, hp])]
  cases h <;> simp [hclosed]

theorem SilentStep.buttonsPaired {s t : State} (h : SilentStep s t) (hs : buttonsPaired s) :
    buttonsPaired t := by
  cases h with
  | decompEnds hp =>
    rw [buttonsPaired_iff (by simp [hp])] at hs
    rwa [buttonsPaired_iff (by simp)]
  | replayEnds hp =>
    rw [buttonsPaired_iff (by simp [hp])] at hs
    rwa [buttonsPaired_iff (by cases s.fxClick <;> simp)]

/-- A due event, answered: the press opens, the release closes, a move does neither, and a `fatal` answer cuts an open
press off. -/
theorem DueEvent.buttonsPaired {s u t : State} {e : SinkEvent} (h : DueEvent s e u)
    (hh : halted s = false) (hs : buttonsPaired s) (he : emitSink e u = .took t) : buttonsPaired t := by
  obtain ⟨later, ⟨-, rfl⟩ | ⟨-, rfl⟩⟩ := emitSink_took he
  all_goals cases h with
  | decomp hp | replay p hp =>
    have hclosed := (buttonsPaired_iff (by simp [hp])).1 hs
    simp [Machine.buttonsPaired, hp, hclosed, scanEvent]
  | press hp =>
    have hclosed := (buttonsPaired_iff (by simp [hp])).1 hs
    simp [Machine.buttonsPaired, hclosed, scanEvent, halted_congr (s := s), hh]
  | release hp =>
    have hopen := (buttonsPaired_release_iff hp hh).1 hs
    simp [Machine.buttonsPaired, hopen, scanEvent]

theorem keptByParts_buttonsPaired : KeptByParts buttonsPaired where
  input _ _ hs := hs
  pushed _ _ _ _ _ hp hs hpu := hpu.buttonsPaired hp hs
  fault c n s _ hp hs := by
    rw [buttonsPaired_iff (by simp [hp])] at hs
    rw [buttonsPaired_iff (by simp [hp])]
    simp [hs]
  start f s _ hp _ hs := by
    rw [buttonsPaired_iff (by simp [hp])] at hs
    rwa [buttonsPaired_iff (by cases hr : f.reset <;> simp [hr])]
  executor s t hs hfx := by
    obtain ⟨hh, hsilent | ⟨e, u, hu, he⟩⟩ := fxStep_took hfx
    · exact hsilent.buttonsPaired hs
    · exact hu.buttonsPaired hh hs he

/-- Settles O44: a reset leaves an empty trace, every other step is made of parts that keep the pairing. -/
theorem buttonsComeInPairs : Obligations.ButtonsComeInPairs := by
  intro s t hs h
  cases hr : s.resetIn with
  | false => exact keptByParts_buttonsPaired.step hr hs h
  | true =>
    obtain rfl := eq_afterReset_of_step hr h
    rfl

/-! ### The range of moves

A move is a clamp or a pair of the frame, so a bound of both is a bound of every move. -/

/-- The trace has grown by events whose moves all satisfy `Q`. -/
def GrowsWithMoves (Q : Axes → Prop) (s t : State) : Prop :=
  ∃ new, t.trace = s.trace ++ new ∧ ∀ m, Event.sink (.move m) ∈ new → Q m

theorem GrowsWithMoves.refl (Q : Axes → Prop) (s : State) : GrowsWithMoves Q s s :=
  ⟨[], by simp, by simp⟩

theorem GrowsWithMoves.trans {Q : Axes → Prop} {s t u : State} (h : GrowsWithMoves Q s t)
    (k : GrowsWithMoves Q t u) : GrowsWithMoves Q s u := by
  obtain ⟨es, hs, hes⟩ := h
  obtain ⟨fs, ht, hfs⟩ := k
  refine ⟨es ++ fs, by rw [ht, hs, List.append_assoc], fun m hm => ?_⟩
  exact (List.mem_append.1 hm).elim (hes m) (hfs m)

/-- Every move that is due is a clamp or a pair of the frame (42_quantizer.md R102, R109). -/
theorem DueEvent.move {Q : Axes → Prop} {s u : State} {m : Axes} (h : DueEvent s (.move m) u)
    (hclamp : ∀ r, Q (clampAxes r)) (hpoints : ∀ p ∈ s.fxPoints, Q ⟨p.dx, p.dy, 0, 0⟩) : Q m := by
  cases h with
  | decomp => exact hclamp _
  | replay p _ _ hpt => exact hpoints p (List.mem_of_getElem? hpt)

theorem growsWithMoves_of_fxStep {Q : Axes → Prop} {s t : State} (h : fxStep s = .took t)
    (hclamp : ∀ r, Q (clampAxes r)) (hpoints : ∀ p ∈ s.fxPoints, Q ⟨p.dx, p.dy, 0, 0⟩) :
    GrowsWithMoves Q s t := by
  obtain k | ⟨e, u, hu, k | k⟩ := fxStep_logged h
  · exact ⟨_, k.trace, by simp⟩
  all_goals
    refine ⟨_, k.trace, fun m hm => ?_⟩
    obtain rfl : SinkEvent.move m = e := by simpa using hm
    exact hu.move hclamp hpoints

/-- The pairs in hand stay, so a run's moves are bounded as one step's are. -/
theorem growsWithMoves_of_runFx {Q : Axes → Prop} {n : Nat} {s t : State} (h : runFx n s = .next t)
    (hclamp : ∀ r, Q (clampAxes r)) (hpoints : ∀ p ∈ s.fxPoints, Q ⟨p.dx, p.dy, 0, 0⟩) :
    GrowsWithMoves Q s t := by
  have hrun := runFx_invariant (P := fun u => GrowsWithMoves Q s u ∧ u.fxPoints = s.fxPoints)
    (fun u v ⟨hu, hup⟩ hfx => ⟨hu.trans (growsWithMoves_of_fxStep hfx hclamp (hup ▸ hpoints)),
      (fxStep_frame hfx).fxPoints.trans hup⟩) ⟨.refl Q s, rfl⟩ h
  exact hrun.1

theorem Point.wf_iff (p : Point) :
    p.wf = true ↔ (-128 ≤ p.dx ∧ p.dx ≤ 127) ∧ (-128 ≤ p.dy ∧ p.dy ≤ 127) := by
  simp [Point.wf, fitsI8]

/-- A pair of `i8` values with no -128 is a move in `[-127, 127]` (42_quantizer.md R110). -/
theorem within127_pair {p : Point} (hwf : p.wf = true) (h : p.dx ≠ -128 ∧ p.dy ≠ -128) :
    within127 ⟨p.dx, p.dy, 0, 0⟩ := by
  obtain ⟨hx, hy⟩ := (Point.wf_iff p).1 hwf
  refine ⟨?_, ?_, by simp, by simp⟩ <;> dsimp only <;> omega

/-- A pair of `i8` values is a move of `i8` components (42_quantizer.md R109, R112). -/
theorem withinI8_pair {p : Point} (hwf : p.wf = true) : withinI8 ⟨p.dx, p.dy, 0, 0⟩ := by
  obtain ⟨hx, hy⟩ := (Point.wf_iff p).1 hwf
  exact ⟨hx, hy, by simp, by simp⟩

theorem withinI8_of_within127 {m : Axes} (h : within127 m) : withinI8 m := by
  unfold within127 at h
  unfold withinI8
  omega

/-- Settles O40: every clamp lies in the range, and so does every pair with no -128. -/
theorem movesAreInRangeWithoutMinus128 : Obligations.MovesAreInRangeWithoutMinus128 := by
  intro i s t hwf hpairs h
  obtain ⟨-, -, hpoints⟩ := (Frame.wf_iff _).1 hwf
  obtain ⟨-, -, hrun⟩ := exec_wf_next hwf h
  exact growsWithMoves_of_runFx (Q := within127) (s := startFrame i.frame s) hrun within127_clampAxes fun p hp =>
    within127_pair (List.all_eq_true.1 hpoints p hp) (hpairs p hp)

/-- The moves so far are `i8` moves and so are the pairs still to come. -/
def movesWillFit (s : State) : Prop :=
  movesFit s.trace ∧ (s.fxPhase ≠ .idle → s.fxPoints.all Point.wf = true)

theorem GrowsWithMoves.movesFit {s t : State} (h : GrowsWithMoves withinI8 s t)
    (hs : movesFit s.trace) : movesFit t.trace := by
  obtain ⟨new, ht, hnew⟩ := h
  intro m hm
  rw [ht, List.mem_append] at hm
  exact hm.elim (hs m) (hnew m)

theorem movesFit_concat_diag {es : List Event} (h : movesFit es) (c : Cause) (n : Nat) :
    movesFit (es ++ [.diag c n]) := by
  intro m hm
  exact h m (by simpa using hm)

theorem keptByParts_movesWillFit : KeptByParts movesWillFit where
  input _ _ hs := hs
  pushed b s t out _ hp hs hpu := by
    refine ⟨?_, by simp [hpu.fxPhase_eq, hp]⟩
    cases hpu with
    | oversize => rw [raiseFault_trace]; exact movesFit_concat_diag hs.1 _ _
    | first | header | stored | completed | skipped | skipEnds => exact hs.1
  fault c n s _ hp hs :=
    ⟨by rw [raiseFault_trace]; exact movesFit_concat_diag hs.1 c n, by simp [hp]⟩
  start f s _ _ hwf hs := by
    obtain ⟨-, -, hpoints⟩ := (Frame.wf_iff f).1 hwf
    exact ⟨hs.1, fun _ => hpoints⟩
  executor s t hs hfx := by
    have hbusy : s.fxPhase ≠ .idle := fun hp => by simp [fxStep_idle hp] at hfx
    have hpoints := hs.2 hbusy
    have hgrows := growsWithMoves_of_fxStep (Q := withinI8) hfx
      (fun r => withinI8_of_within127 (within127_clampAxes r))
      fun p hp => withinI8_pair (List.all_eq_true.1 hpoints p hp)
    exact ⟨hgrows.movesFit hs.1, fun _ => by rw [(fxStep_frame hfx).fxPoints]; exact hpoints⟩

/-- Settles O45: the invariant says the pairs in hand are `i8` pairs, and DECODE gives no others. -/
theorem movesFitTheReport : Obligations.MovesFitTheReport := by
  intro s t hi hs h
  cases hr : s.resetIn with
  | false =>
    obtain ⟨hfit, -⟩ := keptByParts_movesWillFit.step hr ⟨hs, hi.executor.points_i8⟩ h
    exact hfit
  | true =>
    obtain rfl := eq_afterReset_of_step hr h
    simp [movesFit]

end Sys2Proof.Machine
end

section
/-! The statements about the execution of a frame however the sink answers: what it leaves alone, how many events it
has (43_frame_execution.md R120, R134), the `fatal` answer (60_exceptions.md R145), and answers that come late or
not yet (R155). -/

namespace Sys2Proof.Machine

/-! ### The number of events -/

/-- Settles O39: the decomposition's length is that of the length law, and a well-formed frame has as many pairs as it
counts. -/
theorem eventCountIsTheNumberOfEvents : Obligations.EventCountIsTheNumberOfEvents := by
  intro origin f hwf
  obtain ⟨-, hcount, -⟩ := (Frame.wf_iff f).1 hwf
  rw [length_execEvents, eventCount, decompLengthLaw, hcount]

/-- Settles O38: at the start of a frame all its events are left and at most two silent steps. -/
theorem executorRealisesExec : Obligations.ExecutorRealisesExec := by
  intro i s later hwf hh ha
  obtain ⟨-, hcount, -⟩ := (Frame.wf_iff _).1 hwf
  have hsilent : silentLeft (startFrame i.frame s) ≤ 3 := by unfold silentLeft; split <;> omega
  have hevents : (pendingEvents (startFrame i.frame s)).length =
      eventCount s.params.origin.axes i.frame := by
    rw [pendingEvents_startFrame, eventCountIsTheNumberOfEvents _ _ hwf]
  refine ⟨_, runFx_live (later := later) (holdsFrame_startFrame hcount) hh (hevents ▸ ha)
    (by omega), rfl, rfl, ?_⟩
  rw [finished, pendingEvents_startFrame]
  rfl

/-! ### What an execution leaves alone -/

/-- The flags of a run: as they were, or `ST_SINK_FATAL` set too. -/
def flagsOrSinkFatal (flags : BitVec 4) (t : State) : Prop :=
  t.stFlags = flags ∨ t.stFlags = setFlag .sinkFatal flags

theorem setFlag_setFlag (c : Cause) (flags : BitVec 4) : setFlag c (setFlag c flags) = setFlag c flags := by
  cases c <;> simp [setFlag, BitVec.or_assoc]

theorem flagsOrSinkFatal_of_fxStep {flags : BitVec 4} {s t : State} (hs : flagsOrSinkFatal flags s)
    (h : fxStep s = .took t) : flagsOrSinkFatal flags t := by
  obtain k | ⟨e, u, -, k | k⟩ := fxStep_logged h <;> have hf := k.stFlags <;>
    simp only [flagsAfter] at hf
  · exact hs.imp hf.trans hf.trans
  · exact hs.imp hf.trans hf.trans
  · right
    obtain hs | hs := hs <;> rw [hf, hs]
    exact setFlag_setFlag _ _

/-- Outside `FX_DECOMP` an executor step leaves `rem_*` and does not enter `FX_DECOMP`. -/
theorem rem_of_fxStep {s t : State} (hp : s.fxPhase ≠ .decomp) (h : fxStep s = .took t) :
    t.fxPhase ≠ .decomp ∧ t.rem = s.rem := by
  refine ⟨fxStep_ne_decomp hp h, ?_⟩
  have hrem := fxStep_withRem hp s.rem
  rw [show ({ s with rem := s.rem } : State) = s from rfl, h] at hrem
  have hsame : t = { t with rem := s.rem } := FxStep.took.inj hrem
  exact (congrArg State.rem hsame).trans rfl

/-- Settles O37: the frame of a run, and the flags and `rem_*` along it. -/
theorem framesTouchOnlyTheExecutor : Obligations.FramesTouchOnlyTheExecutor := by
  intro i s t hwf h
  obtain ⟨-, -, hrun⟩ := exec_wf_next hwf h
  have hframe := runFx_frame hrun
  have hflags := exec_wf_invariant (P := flagsOrSinkFatal s.stFlags)
    (fun _ _ => flagsOrSinkFatal_of_fxStep) hwf h (.inl rfl)
  refine ⟨hframe.params, hframe.rsPhase, hframe.rsExpected, hframe.rsCount, fun a => ?_, hframe.input,
    hframe.resetIn, hframe.bufAfterReset, hflags, fun hr => ?_⟩
  · rw [hframe.rsBuf, startFrame_rsBuf]
  · obtain ⟨-, hrem⟩ := exec_wf_invariant (P := fun u => u.fxPhase ≠ .decomp ∧ u.rem = s.rem)
      (fun u v hu hfx => (rem_of_fxStep hu.1 hfx).imp_right fun hv => hv.trans hu.2)
      hwf h (by simp [hr])
    exact hrem

/-! ### The sink answers `fatal` -/

/-- A run that draws `ok` for the first `k` events left and `fatal` for the next ends there: that event, the fault's
DIAG event, the flag (60_exceptions.md R145). -/
theorem runToIdle_fatal {s : State} {k : Nat} {later : List SinkAnswer} (hf : holdsFrame s)
    (hh : halted s = false) (hk : k < (pendingEvents s).length)
    (ha : s.sinkAnswers = List.replicate k .ok ++ .fatal :: later) :
    ∃ t, runToIdle s = .next t ∧
      t.trace = s.trace ++ ((pendingEvents s).take (k + 1)).map .sink ++ [.diag .sinkFatal 0] ∧
      t.stFlags = setFlag .sinkFatal s.stFlags ∧ t.sinkAnswers = later := by
  induction hn : stepsLeft s using Nat.strong_induction_on generalizing s k with
  | _ n ih =>
    have hbusy : s.fxPhase ≠ .idle := fun hp => by simp [pendingEvents, hp] at hk
    rcases fxStep_progress hf hh hbusy with ⟨t, ht⟩ | ⟨e, u, hu⟩
    · obtain ⟨hft, hpe, -, hat, htr, hst, -⟩ := ht.pending hf
      rw [runToIdle_of_took (fxStep_silent hh ht), ← hpe, ← htr, ← hst]
      exact ih _ (hn ▸ ht.stepsLeft_lt) hft ((halted_congr hst).trans hh) (hpe ▸ hk) (hat.trans ha) rfl
    · obtain ⟨hfu, hpe, -, -⟩ := hu.pending hf
      have hlog := hu.logged
      have htr : u.trace = s.trace := by rw [hlog.trace, List.append_nil]
      have hst : u.stFlags = s.stFlags := hlog.stFlags
      have hau := hu.sinkAnswers_eq.trans ha
      rw [hpe] at hk ⊢
      cases k with
      | zero =>
        have hfx := (fxStep_due hh hu).trans (emitSink_fatal hau)
        rw [runToIdle_of_took hfx, runToIdle_of_waits (fxStep_halted (by simp))]
        exact ⟨_, rfl, by simp [htr], by simp [hst], by simp⟩
      | succ k =>
        have hfx := (fxStep_due hh hu).trans (emitSink_ok hau)
        rw [runToIdle_of_took hfx]
        obtain ⟨t, hrun, httr, htst, hta⟩ := ih _ (hn ▸ stepsLeft_lt_of_took hfx)
          (s := { u with
            trace := u.trace ++ [.sink e]
            sinkAnswers := List.replicate k .ok ++ .fatal :: later })
          hfu (hu.halted_eq.trans hh) (Nat.lt_of_succ_lt_succ hk) rfl rfl
        exact ⟨t, hrun, httr.trans (by simp [pendingEvents, htr]), htst.trans (by rw [hst]), hta⟩

/-- Settles O46: the run from the start of the frame, where all its events are left. -/
theorem fatalAnswerHaltsMidFrame : Obligations.FatalAnswerHaltsMidFrame := by
  intro i s k later hwf hh hp hk ha
  obtain ⟨-, hcount, -⟩ := (Frame.wf_iff _).1 hwf
  rw [← eventCountIsTheNumberOfEvents _ _ hwf, ← pendingEvents_startFrame] at hk
  obtain ⟨t, hrun, htrace, hflags, hans⟩ :=
    runToIdle_fatal (holdsFrame_startFrame hcount) hh hk ha
  rw [pendingEvents_startFrame] at htrace
  refine ⟨t, (exec_wf hwf hh hp).trans hrun, htrace, hflags, halted_of_sinkFatal ?_, hans⟩
  simp [hflags, flagIsSet_setFlag]

/-! ### What the executor does not notice

A change of the state that the executor neither reads nor undoes may be made before a step or after it. -/

/-- Such a change. -/
structure Unnoticed (g : State → State) : Prop where
  halted : ∀ s, halted (g s) = halted s
  silent : ∀ {s t}, SilentStep s t → SilentStep (g s) (g t)
  due : ∀ {s u e}, DueEvent s e u → DueEvent (g s) e (g u)
  emits : ∀ {s t e}, emitSink e s = .took t → emitSink e (g s) = .took (g t)

theorem Unnoticed.fxStep {g : State → State} (hg : Unnoticed g) {s t : State}
    (h : fxStep s = .took t) : fxStep (g s) = .took (g t) := by
  obtain ⟨hh, hs | ⟨e, u, hu, he⟩⟩ := fxStep_took h
  · exact fxStep_silent ((hg.halted s).trans hh) (hg.silent hs)
  · exact (fxStep_due ((hg.halted s).trans hh) (hg.due hu)).trans (hg.emits he)

/-- A run may be made before the change: what is left to run after it is run then. -/
theorem Unnoticed.runFx {g : State → State} (hg : Unnoticed g) {n : Nat} {s t : State}
    (h : runFx n s = .next t) : runToIdle (g s) = runToIdle (g t) := by
  induction n generalizing s with
  | zero => cases h; rfl
  | succ n ih =>
    cases hs : Machine.fxStep s with
    | took u =>
      rw [runFx_succ_took hs] at h
      rw [runToIdle_of_took (hg.fxStep hs)]
      exact ih h
    | waits =>
      rw [runFx_of_waits hs] at h
      cases h
      rfl
    | stops r => simp [Machine.runFx, hs] at h

/-! ### Answers that come later -/

/-- No stage and no due event depends on the answers the sink has ready. -/
theorem SilentStep.withAnswers {s t : State} (h : SilentStep s t) (answers : List SinkAnswer) :
    SilentStep { s with sinkAnswers := answers } { t with sinkAnswers := answers } := by
  cases h with
  | decompEnds hp hr => exact .decompEnds hp hr
  | replayEnds hp hi => exact .replayEnds hp hi

theorem DueEvent.withAnswers {s u : State} {e : SinkEvent} (h : DueEvent s e u)
    (answers : List SinkAnswer) :
    DueEvent { s with sinkAnswers := answers } e { u with sinkAnswers := answers } := by
  cases h with
  | decomp hp hr => exact .decomp hp hr
  | replay p hp hi hpt => exact .replay p hp hi hpt
  | press hp => exact .press hp
  | release hp => exact .release hp

/-- Answers given behind those there are change no step that is taken. -/
theorem unnoticed_answerSink (late : List SinkAnswer) : Unnoticed (answerSink late) where
  halted _ := rfl
  silent {s t} h := by
    have hans : t.sinkAnswers = s.sinkAnswers := by cases h <;> rfl
    simpa only [answerSink, hans] using h.withAnswers (s.sinkAnswers ++ late)
  due {s u e} h := by
    simpa only [answerSink, h.sinkAnswers_eq] using h.withAnswers (s.sinkAnswers ++ late)
  emits {s t e} h := by
    obtain ⟨later, ⟨ha, rfl⟩ | ⟨ha, rfl⟩⟩ := emitSink_took h
    · exact emitSink_ok (later := later ++ late) (by simp [ha])
    · exact emitSink_fatal (later := later ++ late) (by simp [ha])

/-- Settles O48: the run with the early answers may be made before the late ones are given. -/
theorem lateAnswersChangeNothing : Obligations.LateAnswersChangeNothing := by
  intro i s t early late hwf h
  obtain ⟨hh, hp, hrun⟩ := exec_wf_next hwf h
  rw [exec_wf hwf (by exact hh) (by exact hp)]
  exact (unnoticed_answerSink late).runFx hrun

/-- Settles O47: an event is due, since an answer is taken, and `fatal` in place of `ok` raises the fault in the state
`ok` leaves. -/
theorem fatalAnswerKeepsTheStepsUpdates : Obligations.FatalAnswerKeepsTheStepsUpdates := by
  intro s t later hx ha hok htaken
  have hx' : executing { s with sinkAnswers := .ok :: later } := hx
  have ⟨_, hh, hbusy⟩ := hx
  rcases fxStep_cases s with (hh' | hp) | ⟨-, v, hv⟩ | ⟨-, e, u, hu⟩ | ⟨-, hp, hi, hpt, -⟩
  · simp [hh] at hh'
  · exact absurd hp hbusy
  · rw [step_silent hx' (hv.withAnswers _)] at hok
    cases hok
    exact absurd htaken (List.cons_ne_self _ _)
  · rw [step_due_ok hx' (hu.withAnswers _) rfl] at hok
    cases hok
    rw [step_of_executing hx, continueFrame_of_took
      ((fxStep_due hh hu).trans (emitSink_fatal (hu.sinkAnswers_eq.trans ha)))]
    rfl
  · rw [step_of_executing hx', continueFrame,
      fxStep_pointMissing (by exact hh) (by exact hp) (by exact hi) (by exact hpt)] at hok
    cases hok

/-! ### Answers that have not come -/

/-- Why the executor takes no step: halted, idle, or an event is due that the sink has not answered. -/
theorem fxStep_waits {s : State} (h : fxStep s = .waits) :
    halted s = true ∨ s.fxPhase = .idle ∨ (s.sinkAnswers = [] ∧ ∃ e u, DueEvent s e u) := by
  rcases fxStep_cases s with (hh | hp) | ⟨hh, v, hv⟩ | ⟨hh, e, u, hu⟩ | ⟨-, -, -, -, hs⟩
  · exact .inl hh
  · exact .inr (.inl hp)
  · simp [fxStep_silent hh hv] at h
  · rw [fxStep_due hh hu] at h
    rcases ha : s.sinkAnswers with _ | ⟨_ | _, later⟩
    · exact .inr (.inr ⟨rfl, e, u, hu⟩)
    · simp [emitSink_ok (hu.sinkAnswers_eq.trans ha)] at h
    · simp [emitSink_fatal (hu.sinkAnswers_eq.trans ha)] at h
  · simp [hs] at h

/-- No `fatal` has been taken and none is ready. -/
def noFatal (s : State) : Prop := halted s = false ∧ SinkAnswer.fatal ∉ s.sinkAnswers

theorem noFatal_of_fxStep {s t : State} (hs : noFatal s) (h : fxStep s = .took t) : noFatal t := by
  obtain ⟨hh, hans⟩ := hs
  obtain ⟨-, hv | ⟨e, u, hu, he⟩⟩ := fxStep_took h
  · cases hv <;> exact ⟨hh, hans⟩
  · obtain ⟨later, ⟨ha, rfl⟩ | ⟨ha, rfl⟩⟩ := emitSink_took he <;>
      rw [← hu.sinkAnswers_eq, ha] at hans
    · exact ⟨hu.halted_eq.trans hh, fun hmem => hans (List.mem_cons_of_mem _ hmem)⟩
    · simp at hans

/-- Settles O57: the run ends where no step is enabled, and without a `fatal` that is idle or waiting. -/
theorem everyFrameRunsOrWaits : Obligations.EveryFrameRunsOrWaits := by
  intro i s hwf hh hp
  obtain ⟨t, h⟩ := exec_wf_answers hwf hh hp
  refine ⟨t, h, fun hans => ?_⟩
  obtain ⟨-, -, hrun⟩ := exec_wf_next hwf h
  obtain ⟨hht, -⟩ := exec_wf_invariant (P := noFatal) (fun _ _ => noFatal_of_fxStep) hwf h ⟨hh, hans⟩
  refine ⟨hht, ?_⟩
  obtain hhalt | hidle | ⟨hnone, -⟩ := fxStep_waits (waits_of_runToIdle hrun)
  · simp [hht] at hhalt
  · exact .inl hidle
  · exact .inr hnone

/-- An event that is due while the registers hold the frame in the buffer. -/
theorem exists_dueEvent {s : State} (hi : Inv s) (h : eventDue s) : ∃ e u, DueEvent s e u := by
  unfold eventDue at h
  split at h
  · exact h.elim
  · exact ⟨_, _, .decomp ‹_› h⟩
  · exact ⟨_, _, .replay _ ‹_› h (hi.fxPoints_getElem? (by simp [*]) h)⟩
  · exact ⟨_, _, .press ‹_›⟩
  · exact ⟨_, _, .release ‹_›⟩

/-- Without an answer the executor waits (60_exceptions.md R155). -/
theorem fxStep_unanswered {s : State} (hi : Inv s) (hh : halted s = false) (hd : eventDue s)
    (ha : s.sinkAnswers = []) : fxStep s = .waits := by
  obtain ⟨e, u, hu⟩ := exists_dueEvent hi hd
  rw [fxStep_due hh hu, emitSink_nil (hu.sinkAnswers_eq.trans ha)]

/-- Settles O58: the executor's wait is the step. -/
theorem executorWaitsForTheSink : Obligations.ExecutorWaitsForTheSink := by
  intro s hi hx hd ha
  have ⟨_, hh, _⟩ := hx
  rw [step_of_executing hx, continueFrame, fxStep_unanswered hi hh hd ha]

/-- Settles O59: FEED begins by running on, of which the step is a part, and where the executor waits PUSH is not
enabled. -/
theorem feedFinishesTheFrameFirst : Obligations.FeedFinishesTheFrameFirst := by
  intro s b bs hx
  have ⟨_, hh, hbusy⟩ := hx
  constructor
  · intro t h
    rw [step_of_executing hx, continueFrame] at h
    cases hfx : fxStep s with
    | took u =>
      rw [hfx] at h
      cases h
      exact feed_of_took hfx
    | waits =>
      rw [hfx] at h
      cases h
      rfl
    | stops r =>
      rw [hfx] at h
      cases h
  · intro hi hd ha
    exact feed_given_back (fxStep_unanswered hi hh hd ha) (by simp [pushEnabled, hbusy])

end Sys2Proof.Machine
end

section
/-! The remaining statements about single operations: DECODE (41_decoder.md R90, 30_encoding.md R57), the buffer
(20_memory.md R32, R34, R35), PUSH and the handoff (40_reassembler.md R70 to R76), a placed frame, reset
(70_reset_and_hazards.md R170) and the states in which nothing is taken (60_exceptions.md R148). -/

namespace Sys2Proof

/-! ### DECODE -/

/-- Settles O14: one direction is the length check, the other that a buffer of its declared length decodes. -/
theorem decodeRejectsWrongLength : Obligations.DecodeRejectsWrongLength := by
  refine fun buf => ⟨?_, Machine.decode_reject_of_length⟩
  rintro ⟨why, hreject⟩
  by_contra hlen
  rw [not_or, not_lt, not_not] at hlen
  obtain ⟨i, hd⟩ := decode_of_declared hlen.1 hlen.2
  simp [hd] at hreject

/-- Settles O16: the kind follows from the two flags, and a flag is set by the byte 1 alone. -/
theorem flagBytesSelectTheKind : Obligations.FlagBytesSelectTheKind := by
  intro b0 b1 b2 b3 payload hlen
  dsimp only
  rw [decode_of_length b0 b1 b2 b3 payload hlen]
  simp only [← flagByte_eq_true, ne_eq]
  refine ⟨?_, ?_, ?_, ?_⟩ <;> intro hclick hreset <;> simp [Frame.instr, hclick, hreset]

/-- Settles O17: DECODE is run on the bytes of the four vectors. -/
theorem knownFramesDecode : Obligations.KnownFramesDecode := by
  unfold Obligations.KnownFramesDecode
  decide

end Sys2Proof

namespace Sys2Proof.Machine

/-! ### The buffer -/

/-- Settles O11: read after write at the offset, at another one, and the canonical form. -/
theorem bufferWriteThenRead : Obligations.BufferWriteThenRead :=
  fun m a b => ⟨m.read_write_same a b, fun _ hk => m.read_write_other b hk, m.wf_write a b⟩

/-! ### Reset -/

/-- Settles O2: the reset is tested before anything else. -/
theorem resetIsTakenInEveryState : Obligations.ResetIsTakenInEveryState := by
  intro s h
  exact ⟨_, step_reset h, rfl, rfl, rfl, rfl, rfl, halted_afterReset s, rfl, rfl, rfl, rfl, rfl, rfl⟩

/-! ### The next operation at IN -/

/-- Settles O24: with nothing at IN the operation is a wait. -/
theorem truncatedFramePends : Obligations.TruncatedFramePends := by
  intro s hready hin
  rw [step_of_ready hready, takeInput, hin]

/-- Settles O26: the operation on a byte at IN is PUSH. -/
theorem stepAtInputIsPush : Obligations.StepAtInputIsPush :=
  fun _ _ _ hready hin => step_byte hready hin

/-- Settles O49: the signal at the head of IN raises its fault. -/
theorem transportFatalHalts : Obligations.TransportFatalHalts := by
  intro s later hready hin
  rw [step_of_ready hready, takeInput, hin]
  rfl

/-- Settles O21: the step is PUSH's case of a byte before the last. -/
theorem collectedByteIsStored : Obligations.CollectedByteIsStored := by
  intro s b later len hready hin hp he hlt hcap
  exact step_pushed hready hin (.stored len hp he (show s.rsCount < s.params.bufCap by omega) hlt)

/-- A byte that completes a frame in the buffer: the step hands off the stored bytes and that byte. -/
theorem step_completing {s : State} {b : Byte} {later : List InItem} {len : Nat}
    (hready : readyForInput s) (hin : s.input = .byte b :: later) (hp : s.rsPhase = .collect)
    (he : s.rsExpected = some len) (hlast : s.rsCount + 1 = len) (hcap : len ≤ s.params.bufCap) :
    step s = handoff (s.rsBuf.bytes 0 s.rsCount ++ [b]) { s with
      input := later, rsBuf := s.rsBuf.write s.rsCount b,
      rsPhase := .idle, rsExpected := none, rsCount := 0 } := by
  subst hlast
  rw [← Memory.bytes_write_next]
  exact step_completed hready hin (.completed _ hp he hcap le_rfl)

/-- Settles O22: the handoff of bytes that decode is the execution of the instruction. -/
theorem completingByteRunsTheFrame : Obligations.CompletingByteRunsTheFrame := by
  intro s b later len stored i hready hin hp he hlast hcap hstored hd
  obtain ⟨-, rfl⟩ := (memRead_eq_some _ _ _ _).1 hstored
  rw [step_completing hready hin hp he hlast hcap, handoff_of_decode hd]

/-! ### Handoffs that are not taken -/

/-- Settles O50: the halt is tested before IN, before a handoff and before a PUSH. -/
theorem haltedStopsEverything : Obligations.HaltedStopsEverything := by
  intro s i hh
  refine ⟨fun hr => ?_, ?_, handoff_halted hh, fun chunk => ?_⟩
  · simp [step, nextOperation, hr, hh]
  · rw [exec_eq]
    exact whenIdle_halted hh _
  · exact feed_given_back (fxStep_halted hh) (by simp [pushEnabled, hh])

/-- Settles O55: every handoff asks for an idle executor, whatever is handed off. -/
theorem overlappingHandoffIsRefused : Obligations.OverlappingHandoffIsRefused := by
  intro i s hh hbusy
  refine ⟨?_, handoff_overlapping hh hbusy⟩
  rw [exec_eq]
  exact whenIdle_overlapping hh hbusy _

/-- Settles O54: the execution of a miscounted term is the fault's entry. -/
theorem miscountedTermIsRejected : Obligations.MiscountedTermIsRejected := by
  intro i s hh hp hcount
  rw [exec_eq, execFrame, whenIdle_of_idle hh hp, if_neg hcount]
  rfl

/-! ### A placed frame -/

/-- A row of the opcode table as bytes: its instruction's frame, of the length it declares. -/
theorem decode_tableBytes {nbits w : Nat} {i : Instr} (h : decodeTableWord nbits w = some i) :
    decode (tableBytes nbits w) = .frame i := by
  unfold decodeTableWord at h
  split at h
  · obtain rfl := Option.some.inj h
    assumption
  · cases h

/-- A placed frame that is not oversize is handed off by the next step, all its bytes in the buffer. -/
theorem step_placeFrame {s : State} {frame : List Byte} {i : Instr} (hh : halted s = false)
    (hd : decode frame = .frame i) (hcap : i.frame.pointCount ≤ s.params.maxPoints.toNat) :
    step (placeFrame frame s) = exec i { s with
      rsPhase := .idle, rsExpected := none, rsCount := 0,
      rsBuf := s.rsBuf.writeFrom 0 frame, fxPhase := .idle, resetIn := false,
      sinkAnswers :=
        List.replicate (eventCount s.params.origin.axes i.frame) .ok ++ s.sinkAnswers } := by
  obtain ⟨hcount, hlen⟩ := declared_of_decode hd
  rw [hcount, ← frameLength_le_bufCap, ← hlen] at hcap
  obtain ⟨bytes, b, rfl⟩ : ∃ bytes b, frame = bytes ++ [b] := by
    refine (List.eq_nil_or_concat' frame).resolve_left fun hnil => ?_
    subst hnil
    simp [decode] at hd
  have hready : readyForInput (placeFrame (bytes ++ [b]) s) := ⟨rfl, hh, rfl⟩
  have hstored : (placeFrame (bytes ++ [b]) s).rsBuf.bytes 0 (placeFrame (bytes ++ [b]) s).rsCount =
      bytes := by
    simp [placeFrame, Memory.bytes_writeFrom]
  rw [step_completing (b := b) (later := s.input) hready (by simp [placeFrame]) rfl rfl
    (by simp [placeFrame]) hcap, hstored, handoff_of_decode hd]
  simp [placeFrame, answersNeeded, hd, Memory.writeFrom_append]

/-- Settles O56: the placed frame is handed off, and it has an `ok` ready for each of its events. -/
theorem placedFrameRunsNext : Obligations.PlacedFrameRunsNext := by
  intro s nbits w i hh hword hcap
  have hd := decode_tableBytes hword
  have hwf := wf_of_decode hd
  obtain ⟨-, hcount, -⟩ := (Frame.wf_iff _).1 hwf
  refine ⟨step_placeFrame hh hd hcap, _, exec_live (by exact hh) rfl hcount ?_, rfl, rfl, rfl, rfl⟩
  rw [eventCountIsTheNumberOfEvents _ _ hwf]

/-! ### Stale bytes

Of the buffer PUSH reads the bytes of the frame in progress only, and the executor reads none. -/

/-- The state with another buffer. -/
def withBuf (m : Memory) (s : State) : State := { s with rsBuf := m }

/-- The executor works on the owned copy of the points (10_state.md R12). -/
theorem unnoticed_withBuf (m : Memory) : Unnoticed (withBuf m) where
  halted _ := rfl
  silent h := by
    cases h with
    | decompEnds hp hr => exact .decompEnds hp hr
    | replayEnds hp hi => exact .replayEnds hp hi
  due h := by
    cases h with
    | decomp hp hr => exact .decomp hp hr
    | replay p hp hi hpt => exact .replay p hp hi hpt
    | press hp => exact .press hp
    | release hp => exact .release hp
  emits h := by
    obtain ⟨later, ⟨ha, rfl⟩ | ⟨ha, rfl⟩⟩ := emitSink_took h
    · exact emitSink_ok ha
    · exact emitSink_fatal ha

theorem fxStep_withBuf_waits {s : State} (h : fxStep s = .waits) (m : Memory) :
    fxStep (withBuf m s) = .waits := by
  obtain hh | hp | ⟨ha, e, u, hu⟩ := fxStep_waits h
  · exact fxStep_halted hh
  · exact fxStep_idle hp
  · cases hh : halted s with
    | true => exact fxStep_halted hh
    | false =>
      rw [fxStep_due (s := withBuf m s) hh ((unnoticed_withBuf m).due hu)]
      exact emitSink_nil (hu.sinkAnswers_eq.trans ha)

theorem exec_withBuf {i : Instr} {s t : State} (hwf : i.wf = true) (h : exec i s = .next t)
    (m : Memory) : exec i (withBuf m s) = .next (withBuf m t) := by
  obtain ⟨hh, hp, hrun⟩ := exec_wf_next hwf h
  rw [exec_wf hwf (by exact hh) (by exact hp)]
  exact ((unnoticed_withBuf m).runFx hrun).trans
    (runToIdle_of_waits (fxStep_withBuf_waits (waits_of_runToIdle hrun) m))

/-- A handoff depends on the handed-off bytes, not on the buffer. -/
theorem handoff_withBuf {frame : List Byte} {s t : State} (h : handoff frame s = .next t)
    (m : Memory) : handoff frame (withBuf m s) = .next (withBuf m t) := by
  obtain ⟨hh, hp, ⟨i, hd, hexec⟩ | ⟨why, hd, rfl⟩⟩ := handoff_next h
  · rw [handoff_of_decode hd]
    exact exec_withBuf (wf_of_decode hd) hexec m
  · exact handoff_of_reject hd hh hp

/-- A handoff leaves the Reassembler's count at 0. -/
theorem handoff_rsCount {frame : List Byte} {s t : State} (h : handoff frame s = .next t)
    (hc : s.rsCount = 0) : t.rsCount = 0 := by
  obtain ⟨-, -, ⟨i, hd, hexec⟩ | ⟨why, hd, rfl⟩⟩ := handoff_next h
  · obtain ⟨-, -, hrun⟩ := exec_wf_next (wf_of_decode hd) hexec
    rw [(runFx_frame hrun).rsCount, startFrame_rsCount, hc]
  · simp

theorem Pushed.rsCount_of_completed {b : Byte} {s t : State} {frame : List Byte}
    (h : Pushed b s t (some frame)) : t.rsCount = 0 := by
  cases h
  rfl

theorem sameFrameBytes_of_count {s : State} (h : s.rsCount = 0) (m : Memory) : sameFrameBytes s m := by
  intro _ k hk
  omega

/-- Buffers that agree on the frame in progress agree on it with one byte more. -/
theorem read_write_congr {m m' : Memory} {n : Nat} (h : ∀ k < n, m'.read k = m.read k) (b : Byte) :
    ∀ k < n + 1, (m'.write n b).read k = (m.write n b).read k := by
  intro k hk
  rw [Memory.read_write, Memory.read_write]
  split
  · rfl
  · exact h k (by omega)

/-- PUSH with another buffer that holds the bytes of the frame in progress: the same case, and again the same
bytes. -/
theorem Pushed.withBuf {b : Byte} {s t : State} {out : Option (List Byte)} (h : Pushed b s t out)
    {m : Memory} (hm : sameFrameBytes s m) :
    ∃ m', Pushed b (withBuf m s) (withBuf m' t) out ∧ sameFrameBytes t m' := by
  cases h with
  | first hp hc hcap =>
    have hsame := hm (by simp [hp])
    rw [hc] at hsame
    exact ⟨_, .first hp hc hcap, fun _ => read_write_congr hsame b⟩
  | header hp hc hcap hle =>
    have hsame := hm (by simp [hp])
    rw [hc] at hsame
    rw [← hsame 0 one_pos] at hle ⊢
    exact ⟨_, .header hp hc hcap hle, fun _ => read_write_congr hsame b⟩
  | oversize hp hc hcap hgt =>
    have hsame := hm (by simp [hp])
    rw [hc] at hsame
    rw [← hsame 0 one_pos] at hgt ⊢
    exact ⟨_, .oversize hp hc hcap hgt, by simp [sameFrameBytes]⟩
  | stored len hp he hcap hlt =>
    have hsame := hm (by simp [hp])
    exact ⟨_, .stored len hp he hcap hlt, fun _ => read_write_congr hsame b⟩
  | completed len hp he hcap hle =>
    have hsame := read_write_congr (hm (by simp [hp])) b
    rw [Memory.bytes_congr (m.write s.rsCount b) _ 0 len fun k hk => by
      rw [Nat.zero_add, hsame k (by omega)]]
    exact ⟨_, .completed len hp he hcap hle, sameFrameBytes_of_count rfl _⟩
  | skipped len hp he hlt => exact ⟨m, .skipped len hp he hlt, by simp [sameFrameBytes, hp]⟩
  | skipEnds len hp he hle => exact ⟨m, .skipEnds len hp he hle, sameFrameBytes_of_count rfl _⟩

/-- Settles O60, by the operations a step can be. -/
theorem staleBytesAreNeverObserved : Obligations.StaleBytesAreNeverObserved := by
  intro s t m hm h
  change ∃ m', step (withBuf m s) = .next (withBuf m' t) ∧ _
  cases stepped_of_step h with
  | reset hr => exact ⟨s.bufAfterReset, step_reset hr, sameFrameBytes_of_count rfl _⟩
  | noInput hready hin => exact ⟨m, truncatedFramePends (withBuf m s) hready hin, hm⟩
  | transportFatal later hready hin =>
    exact ⟨m, transportFatalHalts (withBuf m s) later hready hin, by simpa [sameFrameBytes] using hm⟩
  | pushed b later _ hready hin hpu =>
    obtain ⟨m', hpu', hm'⟩ := hpu.withBuf hm
    exact ⟨m', step_pushed (s := withBuf m s) hready hin hpu', hm'⟩
  | ran b later v _ frame hready hin hpu hho =>
    obtain ⟨m', hpu', -⟩ := hpu.withBuf hm
    refine ⟨m', (step_completed (s := withBuf m s) hready hin hpu').trans (handoff_withBuf hho m'), ?_⟩
    exact sameFrameBytes_of_count (handoff_rsCount hho hpu.rsCount_of_completed) m'
  | continued _ hx hfx =>
    have hframe := fxStep_frame hfx
    refine ⟨m, ?_, ?_⟩
    · rw [step_of_executing (s := withBuf m s) hx]
      exact continueFrame_of_took ((unnoticed_withBuf m).fxStep hfx)
    · rw [sameFrameBytes, hframe.rsPhase, hframe.rsCount, hframe.rsBuf]
      exact hm
  | sinkSilent hx hfx =>
    refine ⟨m, ?_, hm⟩
    rw [step_of_executing (s := withBuf m s) hx, continueFrame, fxStep_withBuf_waits hfx m]

end Sys2Proof.Machine
end

section
/-! The statement of 40_reassembler.md about a whole stream (R81, R82). A stream is its declared units and a remainder
(`parse_induction`). A part of a unit is collected byte by byte (`feed_part`), the unit's last byte ends it
(`feed_unit`), and the remainder is a part. -/

namespace Sys2Proof

/-! ### The units of a stream -/

/-- The beginning of a unit that has not arrived whole (40_reassembler.md R81). -/
def isPart (r : List Byte) : Prop := r.length < 2 ∨ r.length < frameLength (declaredCount r)

/-- A whole unit: as many bytes as it declares. -/
def isUnit (u : List Byte) : Prop := 2 ≤ u.length ∧ u.length = frameLength (declaredCount u)

/-- The first two bytes declare the count. -/
theorem declaredCount_append {r : List Byte} (h : 2 ≤ r.length) (s : List Byte) :
    declaredCount (r ++ s) = declaredCount r := by
  rcases r with _ | ⟨b0, _ | ⟨b1, rest⟩⟩
  · simp at h
  · simp at h
  · rfl

theorem isUnit.four_le {u : List Byte} (h : isUnit u) : 4 ≤ u.length := by
  rw [h.2]
  exact frameLength_pos _

/-- A part without its last byte is a part. -/
theorem isPart.of_concat {r : List Byte} {b : Byte} (h : isPart (r ++ [b])) : isPart r := by
  rcases Nat.lt_or_ge r.length 2 with hlt | hge
  · exact .inl hlt
  · right
    rw [isPart, List.length_append, declaredCount_append hge, List.length_singleton] at h
    omega

/-- The last byte of a unit comes after its header. -/
theorem isUnit.two_le_init {r : List Byte} {b : Byte} (h : isUnit (r ++ [b])) : 2 ≤ r.length := by
  have h4 := h.four_le
  rw [List.length_append, List.length_singleton] at h4
  omega

/-- A unit without its last byte is a part. -/
theorem isUnit.isPart_of_concat {r : List Byte} {b : Byte} (h : isUnit (r ++ [b])) : isPart r := by
  have ⟨_, hlen⟩ := h
  rw [List.length_append, List.length_singleton, declaredCount_append h.two_le_init] at hlen
  exact .inr (by omega)

theorem parse_part {r : List Byte} (h : isPart r) : parse r = ([], r) := parse_short h

theorem parse_unit_append {u : List Byte} (h : isUnit u) (r : List Byte) :
    parse (u ++ r) = (u :: (parse r).1, (parse r).2) := by
  obtain ⟨h2, hlen⟩ := h
  have hdecl := declaredCount_append h2 r
  rw [parse_unit (by rw [List.length_append]; omega) (by rw [hdecl, ← hlen, List.length_append]; omega),
    hdecl, ← hlen, List.take_left, List.drop_left]

/-- A stream is a part, or a unit and a stream. -/
theorem parse_induction {P : List Byte → Prop} (part : ∀ r, isPart r → P r)
    (unit : ∀ u r, isUnit u → P r → P (u ++ r)) (bytes : List Byte) : P bytes := by
  induction hn : bytes.length using Nat.strong_induction_on generalizing bytes with
  | _ n ih =>
    by_cases hpart : isPart bytes
    · exact part bytes hpart
    · rw [isPart, not_or, not_lt, not_lt] at hpart
      obtain ⟨h2, hle⟩ := hpart
      have hpos := frameLength_pos (declaredCount bytes)
      have hsplit := List.take_append_drop (frameLength (declaredCount bytes)) bytes
      have htake : (bytes.take (frameLength (declaredCount bytes))).length =
          frameLength (declaredCount bytes) := List.length_take_of_le hle
      have hdecl := declaredCount_append (r := bytes.take (frameLength (declaredCount bytes)))
        (by omega) (bytes.drop (frameLength (declaredCount bytes)))
      rw [hsplit] at hdecl
      have hrest := ih _ (by rw [List.length_drop]; omega)
        (bytes.drop (frameLength (declaredCount bytes))) rfl
      rw [← hsplit]
      exact unit _ _ ⟨by omega, htake.trans (congrArg frameLength hdecl)⟩ hrest

/-- What follows the units of a stream is a part. -/
theorem isPart_remainder (bytes : List Byte) : isPart (parse bytes).2 := by
  induction bytes using parse_induction with
  | part r hr => rwa [parse_part hr]
  | unit u r hu ih => rwa [parse_unit_append hu]

end Sys2Proof

namespace Sys2Proof.Machine

/-! ### The events of a stream -/

theorem streamEvents_part (p : Params) {r : List Byte} (h : isPart r) :
    streamEvents p r = remainderEvents p r := by
  simp [streamEvents, parse_part h]

theorem streamEvents_unit_append (p : Params) {u : List Byte} (h : isUnit u) (r : List Byte) :
    streamEvents p (u ++ r) = unitEvents p u ++ streamEvents p r := by
  simp [streamEvents, parse_unit_append h]

theorem sinkCalls_append (es fs : List Event) :
    sinkCalls (es ++ fs) = sinkCalls es + sinkCalls fs := by
  simp [sinkCalls]

theorem sinkCalls_map_sink (es : List SinkEvent) : sinkCalls (es.map .sink) = es.length := by
  simp [sinkCalls, List.filter_map, Function.comp_def, isSink]

/-- A remainder calls the sink for nothing. -/
theorem sinkCalls_remainderEvents (p : Params) (r : List Byte) :
    sinkCalls (remainderEvents p r) = 0 := by
  unfold remainderEvents
  split <;> rfl

theorem remainderEvents_short (p : Params) {r : List Byte} (h : r.length < 2) :
    remainderEvents p r = [] := if_neg (by omega)

theorem remainderEvents_kept {p : Params} {r : List Byte} (h : unitKept p r = true) :
    remainderEvents p r = [] := by
  simp [remainderEvents, h]

theorem remainderEvents_dropped {p : Params} {r : List Byte} (h2 : 2 ≤ r.length)
    (h : unitKept p r = false) : remainderEvents p r = [.diag .frameOversize (declaredCount r)] :=
  if_pos ⟨h2, h⟩

/-- A dropped unit's one event (40_reassembler.md R74). -/
theorem unitEvents_dropped {p : Params} {u : List Byte} (h : unitKept p u = false) :
    unitEvents p u = [.diag .frameOversize (declaredCount u)] := by
  simp [unitEvents, h]

/-- A kept unit's events are its frame's. -/
theorem unitEvents_kept {p : Params} {u : List Byte} {i : Instr} (h : unitKept p u = true)
    (hd : decode u = .frame i) : unitEvents p u = (execEvents p.origin.axes i.frame).map .sink := by
  simp [unitEvents, h, hd]

/-- Bytes after the header change neither the count nor whether the unit is kept. -/
theorem unitKept_append (p : Params) {r : List Byte} (h : 2 ≤ r.length) (s : List Byte) :
    unitKept p (r ++ s) = unitKept p r := by
  rw [unitKept, declaredCount_append h, unitKept]

/-! ### A part of a unit -/

/-- `rs_phase` after a part of a unit (40_reassembler.md R71 to R75). -/
def partPhase (p : Params) (r : List Byte) : RsPhase :=
  if r.length < 2 then .idle else if unitKept p r then .collect else .skip

/-- `rs_expected` after a part of a unit (40_reassembler.md R71 to R75). -/
def partExpected (r : List Byte) : Option Nat :=
  if r.length < 2 then none else some (frameLength (declaredCount r))

/-- `t` is what FEED of the part `r` leaves of a block that stood at a frame boundary in `s`. -/
structure Received (s : State) (r : List Byte) (t : State) : Prop where
  params : t.params = s.params
  fxPhase : t.fxPhase = .idle
  notHalted : halted t = false
  trace : t.trace = s.trace ++ remainderEvents s.params r
  sinkAnswers : t.sinkAnswers = s.sinkAnswers
  rsPhase : t.rsPhase = partPhase s.params r
  rsExpected : t.rsExpected = partExpected r
  rsCount : t.rsCount = r.length
  bytes : t.rsPhase ≠ .skip → t.rsBuf.bytes 0 r.length = r

theorem received_nil {s : State} (h : atBoundary s) : Received s [] s := by
  obtain ⟨hp, he, hc, hfx, hh⟩ := h
  exact ⟨rfl, hfx, hh, by simp [remainderEvents], rfl, hp, he, hc, fun _ => rfl⟩

theorem partPhase_kept {p : Params} {r : List Byte} (h2 : 2 ≤ r.length) (h : unitKept p r = true) :
    partPhase p r = .collect := by
  rw [partPhase, if_neg (Nat.not_lt.2 h2), if_pos h]

theorem partPhase_dropped {p : Params} {r : List Byte} (h2 : 2 ≤ r.length)
    (h : unitKept p r = false) : partPhase p r = .skip := by
  rw [partPhase, if_neg (Nat.not_lt.2 h2), h]
  rfl

theorem partExpected_long {r : List Byte} (h2 : 2 ≤ r.length) :
    partExpected r = some (frameLength (declaredCount r)) := if_neg (Nat.not_lt.2 h2)

/-- Whether a unit is kept is whether its count is at most `MAX_POINTS`, which is whether it fits the buffer
(40_reassembler.md R81). -/
theorem unitKept_iff (p : Params) (r : List Byte) :
    unitKept p r = true ↔ frameLength (declaredCount r) ≤ p.bufCap := by
  rw [frameLength_le_bufCap, unitKept, decide_eq_true_eq]

/-- A byte stored behind the bytes of a part. -/
theorem Received.bytes_write {s t : State} {r : List Byte} (h : Received s r t) (hp : t.rsPhase ≠ .skip)
    (b : Byte) : (t.rsBuf.write t.rsCount b).bytes 0 (r ++ [b]).length = r ++ [b] := by
  rw [h.rsCount, List.length_append, List.length_singleton, Memory.bytes_write_next, h.bytes hp]

/-- The first header byte (40_reassembler.md R71). -/
theorem Received.push_first {s t : State} (h : Received s [] t) (b : Byte) :
    ∃ u, Pushed b t u none ∧ Received s [b] u := by
  have hcap := four_le_bufCap t.params
  have hp : t.rsPhase = .idle := h.rsPhase
  have hc : t.rsCount = 0 := h.rsCount
  have hbytes := h.bytes_write (by simp [hp]) b
  rw [hc] at hbytes
  exact ⟨_, .first hp hc (by omega), h.params, h.fxPhase, h.notHalted, h.trace, h.sinkAnswers, hp,
    h.rsExpected, rfl, fun _ => hbytes⟩

/-- The second header byte resolves the header: the unit is kept or dropped (40_reassembler.md R72, R74). -/
theorem Received.push_second {s t : State} {b0 : Byte} (h : Received s [b0] t) (b : Byte) :
    ∃ u, Pushed b t u none ∧ Received s [b0, b] u := by
  have hcap := four_le_bufCap t.params
  have hp : t.rsPhase = .idle := h.rsPhase
  have hc : t.rsCount = 1 := h.rsCount
  have hbytes := h.bytes_write (by simp [hp]) b
  rw [hc] at hbytes
  have hread : t.rsBuf.read 0 = b0 := by simpa [Memory.bytes] using h.bytes (by simp [hp])
  cases hk : unitKept s.params [b0, b] with
  | true =>
    have hle : le16 b0 b ≤ t.params.maxPoints.toNat := by
      rw [h.params]
      exact of_decide_eq_true hk
    refine ⟨_, .header hp hc (by omega) (hread ▸ hle), h.params, h.fxPhase, h.notHalted, ?_,
      h.sinkAnswers, (partPhase_kept le_rfl hk).symm, ?_, rfl, fun _ => hbytes⟩
    · rw [remainderEvents_kept hk]
      exact h.trace
    · rw [hread]
      rfl
  | false =>
    have hgt : t.params.maxPoints.toNat < le16 b0 b := by
      rw [h.params, ← not_le]
      exact of_decide_eq_false hk
    refine ⟨_, .oversize hp hc (by omega) (hread ▸ hgt), by simpa using h.params,
      by simpa using h.fxPhase, ?_, ?_, by simpa using h.sinkAnswers, ?_, ?_, by simp, by simp⟩
    · simpa [halted_congr (s := t)] using h.notHalted
    · rw [remainderEvents_dropped le_rfl hk]
      simp [h.trace, remainderEvents_short, hread, declaredCount]
    · simp [partPhase_dropped le_rfl hk]
    · simp [hread, partExpected, declaredCount]

/-- A byte behind the header: stored in a unit that is kept, counted in one that is dropped (40_reassembler.md R73,
R75). -/
theorem Received.push_later {s t : State} {r : List Byte} {b : Byte} (h : Received s r t)
    (h2 : 2 ≤ r.length) (hr : isPart (r ++ [b])) :
    ∃ u, Pushed b t u none ∧ Received s (r ++ [b]) u := by
  have h2' : 2 ≤ (r ++ [b]).length := by rw [List.length_append]; omega
  have hdecl := declaredCount_append h2 [b]
  have hkept := unitKept_append s.params h2 [b]
  have he := h.rsExpected.trans (partExpected_long h2)
  have he' : t.rsExpected = partExpected (r ++ [b]) := by rw [he, partExpected_long h2', hdecl]
  have hc' : t.rsCount + 1 = (r ++ [b]).length := by
    rw [h.rsCount, List.length_append, List.length_singleton]
  have hlt : t.rsCount + 1 < frameLength (declaredCount r) := by
    rw [hc', ← hdecl]
    exact hr.resolve_left (Nat.not_lt.2 h2')
  cases hk : unitKept s.params r with
  | true =>
    rw [hk] at hkept
    have hp := h.rsPhase.trans (partPhase_kept h2 hk)
    have hcap := (unitKept_iff s.params r).1 hk
    rw [← h.params] at hcap
    have hbytes := h.bytes_write (by simp [hp]) b
    have htrace := h.trace
    rw [remainderEvents_kept hk, ← remainderEvents_kept hkept] at htrace
    exact ⟨_, .stored _ hp he (by omega) hlt, h.params, h.fxPhase, h.notHalted, htrace, h.sinkAnswers,
      hp.trans (partPhase_kept h2' hkept).symm, he', hc', fun _ => hbytes⟩
  | false =>
    rw [hk] at hkept
    have hp := h.rsPhase.trans (partPhase_dropped h2 hk)
    have htrace := h.trace
    rw [remainderEvents_dropped h2 hk, ← hdecl, ← remainderEvents_dropped h2' hkept] at htrace
    exact ⟨_, .skipped _ hp he hlt, h.params, h.fxPhase, h.notHalted, htrace, h.sinkAnswers,
      hp.trans (partPhase_dropped h2' hkept).symm, he', hc', fun hne => absurd hp hne⟩

/-- One byte more of a part is one case of PUSH that completes no frame. -/
theorem Received.push {s t : State} {r : List Byte} {b : Byte} (h : Received s r t)
    (hr : isPart (r ++ [b])) : ∃ u, Pushed b t u none ∧ Received s (r ++ [b]) u := by
  rcases Nat.lt_or_ge r.length 2 with hlt | hge
  · obtain rfl | ⟨b0, rfl⟩ : r = [] ∨ ∃ b0, r = [b0] := by
      rcases r with _ | ⟨b0, _ | ⟨b1, rest⟩⟩
      · exact .inl rfl
      · exact .inr ⟨b0, rfl⟩
      · simp at hlt
    · exact h.push_first b
    · exact h.push_second b
  · exact h.push_later hge hr

/-- A part of a unit is consumed, hands nothing off and takes no answer. -/
theorem feed_part {s : State} (hs : atBoundary s) {r : List Byte} (hr : isPart r) :
    ∃ t, feed r s = .next ⟨t, [], []⟩ ∧ Received s r t := by
  induction r using List.reverseRecOn with
  | nil => exact ⟨s, rfl, received_nil hs⟩
  | append_singleton r b ih =>
    obtain ⟨t, hfeed, ht⟩ := ih hr.of_concat
    obtain ⟨u, hpu, hu⟩ := ht.push hr
    refine ⟨u, ?_, hu⟩
    rw [feed_append, hfeed, thenFeed_consumed, feed_of_pushed ht.notHalted ht.fxPhase hpu]
    rfl

/-! ### A whole unit -/

/-- FEED of a byte that completes a frame hands it off and executes it. -/
theorem feed_of_completed {b : Byte} {s t u : State} {frame : List Byte} (hh : halted s = false)
    (hp : s.fxPhase = .idle) (h : Pushed b s t (some frame)) (hho : handoff frame t = .next u) :
    feed [b] s = .next ⟨u, [frame], []⟩ := by
  simp [feed, runToIdle_of_waits (fxStep_idle hp), pushEnabled_eq hh hp, reassemble_of_pushed h, hho]

/-- What a unit leaves of a block that stood at a frame boundary in `s`, with `later` the answers not taken. -/
structure UnitDone (s : State) (es : List Event) (later : List SinkAnswer) (t : State) : Prop where
  boundary : atBoundary t
  params : t.params = s.params
  trace : t.trace = s.trace ++ es
  sinkAnswers : t.sinkAnswers = later

/-- Before the last byte of a unit the Reassembler expects one byte more. -/
theorem Received.expects_last {s t : State} {r : List Byte} {b : Byte} (h : Received s r t)
    (hu : isUnit (r ++ [b])) :
    t.rsCount + 1 = (r ++ [b]).length ∧ t.rsExpected = some (t.rsCount + 1) := by
  have hcount : t.rsCount + 1 = (r ++ [b]).length := by
    rw [h.rsCount, List.length_append, List.length_singleton]
  refine ⟨hcount, ?_⟩
  rw [h.rsExpected, partExpected_long hu.two_le_init, hcount, hu.2,
    declaredCount_append hu.two_le_init]

/-- The last byte of a dropped unit ends the skip (40_reassembler.md R75). -/
theorem Received.feed_dropped {s t : State} {r : List Byte} {b : Byte} (h : Received s r t)
    (hu : isUnit (r ++ [b])) (hk : unitKept s.params (r ++ [b]) = false) :
    ∃ u, feed [b] t = .next ⟨u, [], []⟩ ∧
      UnitDone s (unitEvents s.params (r ++ [b])) s.sinkAnswers u := by
  have h2 := hu.two_le_init
  have hk' : unitKept s.params r = false := (unitKept_append _ h2 [b]).symm.trans hk
  have hp := h.rsPhase.trans (partPhase_dropped h2 hk')
  obtain ⟨-, he⟩ := h.expects_last hu
  refine ⟨_, feed_of_pushed h.notHalted h.fxPhase (.skipEnds _ hp he le_rfl),
    ⟨rfl, rfl, rfl, h.fxPhase, h.notHalted⟩, h.params, ?_, h.sinkAnswers⟩
  rw [unitEvents_dropped hk, declaredCount_append h2, ← remainderEvents_dropped h2 hk']
  exact h.trace

/-- The last byte of a kept unit completes the frame, which stands in the buffer whole (40_reassembler.md R73). -/
theorem Received.pushed_frame {s t : State} {r : List Byte} {b : Byte} (h : Received s r t)
    (hu : isUnit (r ++ [b])) (hk : unitKept s.params (r ++ [b]) = true) :
    Pushed b t { t with
      rsBuf := t.rsBuf.write t.rsCount b, rsPhase := .idle, rsExpected := none, rsCount := 0 }
      (some (r ++ [b])) := by
  have h2 := hu.two_le_init
  have hp := h.rsPhase.trans (partPhase_kept h2 ((unitKept_append _ h2 [b]).symm.trans hk))
  obtain ⟨hcount, he⟩ := h.expects_last hu
  have hcap := (unitKept_iff _ _).1 hk
  rw [← hu.2, ← hcount, ← h.params] at hcap
  have hpu := Pushed.completed (b := b) _ hp he hcap le_rfl
  rwa [hcount, h.bytes_write (by simp [hp]) b] at hpu

/-- The frame of a kept unit is executed with a live sink (43_frame_execution.md R134). -/
theorem Received.feed_kept {s t : State} {r : List Byte} {b : Byte} (h : Received s r t)
    (hu : isUnit (r ++ [b])) (hk : unitKept s.params (r ++ [b]) = true) {later : List SinkAnswer}
    (ha : s.sinkAnswers =
      List.replicate (sinkCalls (unitEvents s.params (r ++ [b]))) .ok ++ later) :
    ∃ u, feed [b] t = .next ⟨u, [r ++ [b]], []⟩ ∧
      UnitDone s (unitEvents s.params (r ++ [b])) later u := by
  have h2 := hu.two_le_init
  have htrace := h.trace
  rw [remainderEvents_kept ((unitKept_append _ h2 [b]).symm.trans hk), List.append_nil] at htrace
  obtain ⟨i, hd⟩ := decode_of_declared hu.1 hu.2
  obtain ⟨-, hcount, -⟩ := (Frame.wf_iff _).1 (wf_of_decode hd)
  rw [unitEvents_kept hk hd, sinkCalls_map_sink, ← h.params, ← h.sinkAnswers] at ha
  rw [unitEvents_kept hk hd, ← h.params]
  refine ⟨_, feed_of_completed h.notHalted h.fxPhase (h.pushed_frame hu hk)
    ((handoff_of_decode hd _).trans (exec_live (by exact h.notHalted) h.fxPhase hcount ha)),
    ⟨rfl, rfl, rfl, h.fxPhase, h.notHalted⟩, h.params, congrArg (· ++ _) htrace, rfl⟩

/-- A whole unit, kept or dropped, leads from a frame boundary to a frame boundary (40_reassembler.md R81). -/
theorem feed_unit {s : State} (hs : atBoundary s) {u : List Byte} (hu : isUnit u)
    {later : List SinkAnswer}
    (ha : s.sinkAnswers = List.replicate (sinkCalls (unitEvents s.params u)) .ok ++ later) :
    ∃ t, feed u s = .next ⟨t, [u].filter (unitKept s.params), []⟩ ∧
      UnitDone s (unitEvents s.params u) later t := by
  obtain rfl | ⟨r, b, rfl⟩ := List.eq_nil_or_concat' u
  · simp [isUnit] at hu
  · obtain ⟨t, hfeed, ht⟩ := feed_part hs hu.isPart_of_concat
    rw [feed_append, hfeed, thenFeed_consumed]
    cases hk : unitKept s.params (r ++ [b]) with
    | true =>
      rw [List.filter_singleton, hk]
      exact ht.feed_kept hu hk ha
    | false =>
      rw [List.filter_singleton, hk]
      rw [unitEvents_dropped hk] at ha
      obtain rfl : s.sinkAnswers = later := by simpa [sinkCalls, isSink] using ha
      exact ht.feed_dropped hu hk

/-! ### The stream -/

/-- From a frame boundary the units of a stream lead to a frame boundary `v`, and the remainder from there
(40_reassembler.md R81). -/
theorem feed_stream (bytes : List Byte) {s : State} (hs : atBoundary s) {later : List SinkAnswer}
    (ha : s.sinkAnswers =
      List.replicate (sinkCalls (streamEvents s.params bytes)) .ok ++ later) :
    ∃ v t, feed bytes s = .next ⟨t, (parse bytes).1.filter (unitKept s.params), []⟩ ∧
      v.params = s.params ∧ Received v (parse bytes).2 t ∧
      t.trace = s.trace ++ streamEvents s.params bytes ∧ t.sinkAnswers = later := by
  induction bytes using parse_induction generalizing s with
  | part r hr =>
    obtain ⟨t, hfeed, ht⟩ := feed_part hs hr
    rw [streamEvents_part _ hr] at ha ⊢
    rw [sinkCalls_remainderEvents] at ha
    rw [parse_part hr]
    exact ⟨s, t, hfeed, rfl, ht, ht.trace, ht.sinkAnswers.trans ha⟩
  | unit u r hu ih =>
    rw [streamEvents_unit_append _ hu, sinkCalls_append, List.replicate_add, List.append_assoc] at ha
    obtain ⟨w, hfeedu, hw⟩ := feed_unit hs hu ha
    obtain ⟨v, t, hfeedr, hv, ht, htrace, hans⟩ := ih hw.boundary (by rw [hw.params]; exact hw.sinkAnswers)
    rw [hw.params] at hfeedr hv htrace
    refine ⟨v, t, ?_, hv, by rwa [parse_unit_append hu], ?_, hans⟩
    · rw [feed_append, hfeedu, thenFeed, hfeedr, parse_unit_append hu]
      simp only [Fed.followedBy, ← List.filter_append, List.singleton_append, List.append_nil]
    · rw [htrace, hw.trace, streamEvents_unit_append _ hu, List.append_assoc]

/-- The bytes of a part are those in the buffer, one by one. -/
theorem Received.read {s t : State} {r : List Byte} (h : Received s r t) (hp : t.rsPhase ≠ .skip)
    {k : Nat} (hk : k < t.rsCount) : some (t.rsBuf.read k) = r[k]? := by
  rw [h.rsCount] at hk
  rw [← h.bytes hp, Memory.getElem?_bytes, if_pos hk, Nat.zero_add]

/-- Settles O27: what FEED of the remainder leaves in the Reassembler depends on the remainder and `MAX_POINTS` only,
so the remainder leaves the same from the last unit's boundary as from the first. -/
theorem streamIsParsedIntoFrames : Obligations.StreamIsParsedIntoFrames := by
  intro s bytes later hs ha
  obtain ⟨v, t, hfeed, hv, ht, htrace, hans⟩ := feed_stream bytes hs ha
  obtain ⟨u, hfeedu, hu⟩ := feed_part hs (isPart_remainder bytes)
  refine ⟨t, hfeed, htrace, hans, ht.fxPhase, ht.notHalted, ⟨u, hfeedu, ?_, ?_, ?_⟩,
    fun hp => ⟨ht.rsCount, fun k hk => ht.read hp hk⟩⟩
  · rw [ht.rsPhase, hu.rsPhase, hv]
  · rw [ht.rsExpected, hu.rsExpected]
  · rw [ht.rsCount, hu.rsCount]

end Sys2Proof.Machine
end
